-- ==== Sys2Proof/Word.lean ====
section
/-! DEFINITION. The word types of CORE: bytes, 16-bit words and register numbers (R3, R12, R13). -/

namespace Sys2Proof

/-- A memory byte or a general register's contents: 8 bits, unsigned (R31, R70). -/
abbrev Byte := BitVec 8

/-- An instruction word, a program counter, an index or a return address: 16 bits (R35, R37, R41, R100). -/
abbrev Word := BitVec 16

/-- The number of a general register, V0 to VF (R31). -/
abbrev Reg := Fin 16

/-- The number of a key, 0x0 to 0xF (R48). -/
abbrev Key := Fin 16

end Sys2Proof
end

