-- ==== Sys2Proof/Config.lean ====
section
/-! DEFINITION. What is fixed for one CORE block: the sizes of R10, and the four parameters that the spec leaves open (R11), each an uninterpreted constant without a body, so that no proof can use a value of one. -/

namespace Sys2Proof

/-- The order of the flag write and the result write in 8XY4, 8XY5, 8XY6, 8XY7, 8XYE and FX1E (R211). The first
constructor is the order the spec calls the default. -/
inductive VfWriteOrder where
  /-- VF is written first, and the result is computed from the registers as they then are. -/
  | flagFirst
  /-- All operands are read first, then the result is written, then VF. -/
  | operandsFirst
deriving DecidableEq, Repr, Inhabited

/-- How the 510 open words of group 0x0 decode (R110). The first constructor is the setting the spec calls the default. -/
inductive ZeroGroupSelect where
  /-- The model gives the word no meaning (R306). -/
  | refuse
  /-- The low nibble selects: 0x0 is clear screen, 0xE is return. -/
  | lowNibble
  /-- The low byte selects: 0xE0 is clear screen, 0xEE is return. -/
  | lowByte
  /-- The whole word selects: only 0x00E0 and 0x00EE are instructions. -/
  | exact
deriving DecidableEq, Repr, Inhabited

namespace Config

/-- MEM_SIZE: addresses 0x000 to 0xFFF exist (R10, R70). -/
abbrev memSize : Nat := 0x1000

/-- FONT_SIZE: 16 glyphs of 5 bytes from address 0 (R10, R71). -/
abbrev fontSize : Nat := 80

/-- GLYPH_BYTES: the bytes of one glyph (R10, R252). -/
abbrev glyphBytes : Nat := 5

/-- PROG_BASE: the first byte of the loadable region and the entry point (R10, R73). -/
abbrev progBase : Nat := 0x200

/-- PROG_MAX: the longest program image (R10, R352). -/
abbrev progMax : Nat := 3584

/-- DISPLAY_W: cells in one row of the framebuffer (R10, R46). -/
abbrev displayWidth : Nat := 64

/-- DISPLAY_W × DISPLAY_H: cells of the framebuffer (R10, R46). -/
abbrev cells : Nat := 2048

/-- VF_WRITE_ORDER, open (R211, decision D1; log 1). A claim is true of the block only if it is true under both
orders, or names the order. -/
opaque vfWriteOrder : VfWriteOrder

/-- ZERO_GROUP_SELECT, open (R110, decision D8; log 4). -/
opaque zeroGroupSelect : ZeroGroupSelect

/-- FONT, the 80 font bytes, open (R72, decision D2; log 2). -/
opaque font : Fin fontSize → Byte

/-- RAND: the byte that the n-th draw of CXNN gives, under no law (R223, decision D3; log 3). -/
opaque rand : Nat → Byte

end Config

end Sys2Proof
end

