-- ==== Sys2Proof/Syntax.lean ====
section
/-! DEFINITION. The instructions of CORE: one constructor for each of the 34 rows of spec/opcode_table.json (R108, R109). -/

namespace Sys2Proof

/-- An instruction with its operands (R114). `x` and `y` are register numbers, `nn` the 8-bit immediate, `nnn` the
12-bit address zero-extended to 16 bits (R105) and `n` the sprite height (R106). The ignored bits of 5XY_, 9XY_, 8XY6
and 8XYE are no operands (R111, R220, R222). -/
inductive Instr where
  /-- 00E0, clear screen (R160). -/
  | cls
  /-- 00EE, return (R180). -/
  | ret
  /-- 1NNN, jump (R181). -/
  | jp (nnn : Word)
  /-- 2NNN, call (R182). -/
  | call (nnn : Word)
  /-- 3XNN, skip if equal to the immediate (R183). -/
  | seImm (x : Reg) (nn : Byte)
  /-- 4XNN, skip if not equal to the immediate (R184). -/
  | sneImm (x : Reg) (nn : Byte)
  /-- 5XY_, skip if the registers are equal (R185). -/
  | seReg (x y : Reg)
  /-- 6XNN, load immediate (R212). -/
  | ldImm (x : Reg) (nn : Byte)
  /-- 7XNN, add immediate without a flag (R213). -/
  | addImm (x : Reg) (nn : Byte)
  /-- 8XY0, copy (R214). -/
  | ldReg (x y : Reg)
  /-- 8XY1 (R215). -/
  | or (x y : Reg)
  /-- 8XY2 (R216). -/
  | and (x y : Reg)
  /-- 8XY3 (R217). -/
  | xor (x y : Reg)
  /-- 8XY4, add with carry (R218). -/
  | addReg (x y : Reg)
  /-- 8XY5, subtract (R219). -/
  | sub (x y : Reg)
  /-- 8XY6, shift right (R220). -/
  | shr (x : Reg)
  /-- 8XY7, reverse subtract (R221). -/
  | subn (x y : Reg)
  /-- 8XYE, shift left (R222). -/
  | shl (x : Reg)
  /-- 9XY_, skip if the registers are not equal (R186). -/
  | sneReg (x y : Reg)
  /-- ANNN, load index (R250). -/
  | ldI (nnn : Word)
  /-- BNNN, jump with offset V0 (R187). -/
  | jpV0 (nnn : Word)
  /-- CXNN, random byte AND the immediate (R223). -/
  | rnd (x : Reg) (nn : Byte)
  /-- DXYN, draw a sprite (R161). -/
  | drw (x y : Reg) (n : Nat)
  /-- EX9E, skip if the key is pressed (R280). -/
  | skp (x : Reg)
  /-- EXA1, skip if the key is not pressed (R281). -/
  | sknp (x : Reg)
  /-- FX07, read the delay timer (R282). -/
  | ldVxDt (x : Reg)
  /-- FX0A, wait for a key (R283). -/
  | ldVxK (x : Reg)
  /-- FX15, set the delay timer (R284). -/
  | ldDtVx (x : Reg)
  /-- FX18, set the sound timer (R285). -/
  | ldStVx (x : Reg)
  /-- FX1E, add to index (R251). -/
  | addIVx (x : Reg)
  /-- FX29, address of a font glyph (R252). -/
  | ldFVx (x : Reg)
  /-- FX33, store the decimal digits (R253). -/
  | ldBVx (x : Reg)
  /-- FX55, register dump (R254). -/
  | ldMemVx (x : Reg)
  /-- FX65, register load (R255). -/
  | ldVxMem (x : Reg)
deriving DecidableEq, Repr

end Sys2Proof
end

