-- ==== Sys2Proof/WellFormed.lean ====
section
/-! DEFINITION. Which instruction terms an instruction word can hold: the operands fit their fields. Register numbers and immediates fit by their types; an address is 12 bits wide (R105) and a sprite height 4 (R106). -/

namespace Sys2Proof

/-- An address operand fits the field NNN (R105). -/
def fitsAddr (nnn : Word) : Bool := decide (nnn.toNat < 0x1000)

/-- A sprite height fits the field N (R106). -/
def fitsHeight (n : Nat) : Bool := decide (n < 16)

/-- Every operand fits its field in the 16-bit word (R103 to R106). -/
def Instr.wf : Instr → Bool
  | .cls => true
  | .ret => true
  | .jp nnn => fitsAddr nnn
  | .call nnn => fitsAddr nnn
  | .seImm _ _ => true
  | .sneImm _ _ => true
  | .seReg _ _ => true
  | .ldImm _ _ => true
  | .addImm _ _ => true
  | .ldReg _ _ => true
  | .or _ _ => true
  | .and _ _ => true
  | .xor _ _ => true
  | .addReg _ _ => true
  | .sub _ _ => true
  | .shr _ => true
  | .subn _ _ => true
  | .shl _ => true
  | .sneReg _ _ => true
  | .ldI nnn => fitsAddr nnn
  | .jpV0 nnn => fitsAddr nnn
  | .rnd _ _ => true
  | .drw _ _ n => fitsHeight n
  | .skp _ => true
  | .sknp _ => true
  | .ldVxDt _ => true
  | .ldVxK _ => true
  | .ldDtVx _ => true
  | .ldStVx _ => true
  | .addIVx _ => true
  | .ldFVx _ => true
  | .ldBVx _ => true
  | .ldMemVx _ => true
  | .ldVxMem _ => true

end Sys2Proof
end

