-- ==== Sys2Proof/Decode.lean ====
section
/-! DEFINITION. Decoding a 16-bit word (R100 to R114), total on every word, and after it the encoder and the opcode table of R108. -/

namespace Sys2Proof

/-! ## Fields of a word (R18, R103 to R106) -/

/-- `g`, the primary group: bits 15:12 (R101). -/
def fieldG (w : Word) : Nat := (w.extractLsb' 12 4).toNat

/-- `x`, a register number: bits 11:8 (R103; log 10). -/
def fieldX (w : Word) : Reg := (w.extractLsb' 8 4).toFin

/-- `y`, a register number: bits 7:4 (R103; log 10). -/
def fieldY (w : Word) : Reg := (w.extractLsb' 4 4).toFin

/-- `N`, the low nibble: bits 3:0 (R106). -/
def fieldN (w : Word) : Nat := (w.extractLsb' 0 4).toNat

/-- `NN`, the low byte: bits 7:0 (R104; log 10). -/
def fieldNN (w : Word) : Byte := w.extractLsb' 0 8

/-- `NNN`, the 12-bit address zero-extended to 16 bits: bits 11:0 (R105). -/
def fieldNNN (w : Word) : Word := (w.extractLsb' 0 12).setWidth 16

/-! ## Decoding -/

/-- What a word means to the decoder (R114). -/
inductive Decoded where
  /-- An instruction with its fields. -/
  | instr (i : Instr)
  /-- No instruction: the non-fatal `UnknownOpcode` (R112, R148). -/
  | unknown
  /-- A word the spec gives no meaning (R110, R306). -/
  | refused
deriving DecidableEq, Repr

/-- A group-0x0 word with low nibble 0x0 or 0xE that is neither 00E0 nor 00EE, under a setting of
ZERO_GROUP_SELECT (the table of R110). -/
def zeroGroup (sel : ZeroGroupSelect) (w : Word) : Decoded :=
  match sel with
  | .refuse => .refused
  | .lowNibble => if fieldN w = 0x0 then .instr .cls else .instr .ret
  | .lowByte =>
    if fieldNN w = 0xE0 then .instr .cls else if fieldNN w = 0xEE then .instr .ret else .unknown
  | .exact => .unknown

/-- Group 0x0: the exact words 00E0 and 00EE, the unknown words, and the open words (R110). -/
def decodeGroup0 (sel : ZeroGroupSelect) (w : Word) : Decoded :=
  if w = 0x00E0 then .instr .cls
  else if w = 0x00EE then .instr .ret
  else if fieldN w ≠ 0x0 ∧ fieldN w ≠ 0xE then .unknown
  else zeroGroup sel w

/-- Group 0x8: the low nibble selects (R102, R108). -/
def decodeGroup8 (w : Word) : Decoded :=
  match fieldN w with
  | 0x0 => .instr (.ldReg (fieldX w) (fieldY w))
  | 0x1 => .instr (.or (fieldX w) (fieldY w))
  | 0x2 => .instr (.and (fieldX w) (fieldY w))
  | 0x3 => .instr (.xor (fieldX w) (fieldY w))
  | 0x4 => .instr (.addReg (fieldX w) (fieldY w))
  | 0x5 => .instr (.sub (fieldX w) (fieldY w))
  | 0x6 => .instr (.shr (fieldX w))
  | 0x7 => .instr (.subn (fieldX w) (fieldY w))
  | 0xE => .instr (.shl (fieldX w))
  | _ => .unknown

/-- Group 0xE: the low byte selects (R102, R108). -/
def decodeGroupE (w : Word) : Decoded :=
  match (fieldNN w).toNat with
  | 0x9E => .instr (.skp (fieldX w))
  | 0xA1 => .instr (.sknp (fieldX w))
  | _ => .unknown

/-- Group 0xF: the low byte selects (R102, R108). -/
def decodeGroupF (w : Word) : Decoded :=
  match (fieldNN w).toNat with
  | 0x07 => .instr (.ldVxDt (fieldX w))
  | 0x0A => .instr (.ldVxK (fieldX w))
  | 0x15 => .instr (.ldDtVx (fieldX w))
  | 0x18 => .instr (.ldStVx (fieldX w))
  | 0x1E => .instr (.addIVx (fieldX w))
  | 0x29 => .instr (.ldFVx (fieldX w))
  | 0x33 => .instr (.ldBVx (fieldX w))
  | 0x55 => .instr (.ldMemVx (fieldX w))
  | 0x65 => .instr (.ldVxMem (fieldX w))
  | _ => .unknown

/-- `Decode` of R114 under a setting of ZERO_GROUP_SELECT: the top four bits dispatch (R101). -/
def decodeWith (sel : ZeroGroupSelect) (w : Word) : Decoded :=
  match fieldG w with
  | 0x0 => decodeGroup0 sel w
  | 0x1 => .instr (.jp (fieldNNN w))
  | 0x2 => .instr (.call (fieldNNN w))
  | 0x3 => .instr (.seImm (fieldX w) (fieldNN w))
  | 0x4 => .instr (.sneImm (fieldX w) (fieldNN w))
  | 0x5 => .instr (.seReg (fieldX w) (fieldY w))
  | 0x6 => .instr (.ldImm (fieldX w) (fieldNN w))
  | 0x7 => .instr (.addImm (fieldX w) (fieldNN w))
  | 0x8 => decodeGroup8 w
  | 0x9 => .instr (.sneReg (fieldX w) (fieldY w))
  | 0xA => .instr (.ldI (fieldNNN w))
  | 0xB => .instr (.jpV0 (fieldNNN w))
  | 0xC => .instr (.rnd (fieldX w) (fieldNN w))
  | 0xD => .instr (.drw (fieldX w) (fieldY w) (fieldN w))
  | 0xE => decodeGroupE w
  | _ => decodeGroupF w

/-- The decoder of this block: R114 with the block's own ZERO_GROUP_SELECT. -/
def decode (w : Word) : Decoded := decodeWith Config.zeroGroupSelect w

/-- The instruction word of two consecutive bytes, big-endian: the byte at the lower address is bits 15:8 (R77, R100). -/
def wordOfBytes (hi lo : Byte) : Word := hi ++ lo

/-- The byte of a word that lies at the lower address: bits 15:8 (R77). -/
def hiByte (w : Word) : Byte := w.extractLsb' 8 8

/-- The byte of a word that lies at the higher address: bits 7:0 (R77). -/
def loByte (w : Word) : Byte := w.extractLsb' 0 8

/-- The decoder on the two bytes of an instruction in address order. -/
def decodeBytes (b0 b1 : Byte) : Decoded := decode (wordOfBytes b0 b1)

/-- An instruction word as the opcode table numbers it: the low `nbits` bits of `w`, the bits above them zero. -/
def tableWord (nbits w : Nat) : Word := BitVec.ofNat 16 (w % 2 ^ nbits)

/-- The instruction that the decoder reads from a word of the opcode table, laid out in memory order. -/
def decodeTableWord (nbits w : Nat) : Option Instr :=
  match decodeBytes (hiByte (tableWord nbits w)) (loByte (tableWord nbits w)) with
  | .instr i => some i
  | .unknown => none
  | .refused => none

/-! ## Encoding -/

/-- Format FA: group, 12-bit address (R107). -/
def encodeFA (g : BitVec 4) (nnn : Word) : Word := g ++ nnn.setWidth 12

/-- Format FI: group, register, 8-bit immediate (R107). -/
def encodeFI (g : BitVec 4) (x : Reg) (nn : Byte) : Word := g ++ (BitVec.ofFin x : BitVec 4) ++ nn

/-- Format FR: group, two registers, low nibble (R107). -/
def encodeFR (g : BitVec 4) (x y : Reg) (n : BitVec 4) : Word :=
  g ++ (BitVec.ofFin x : BitVec 4) ++ (BitVec.ofFin y : BitVec 4) ++ n

/-- Format FS: group, register, sub-code byte (R107). -/
def encodeFS (g : BitVec 4) (x : Reg) (sub : BitVec 8) : Word := g ++ (BitVec.ofFin x : BitVec 4) ++ sub

/-- The word of an instruction, by the opcode map (R107, R108); ignored bits are 0. -/
def encode : Instr → Word
  | .cls => 0x00E0
  | .ret => 0x00EE
  | .jp nnn => encodeFA 0x1 nnn
  | .call nnn => encodeFA 0x2 nnn
  | .seImm x nn => encodeFI 0x3 x nn
  | .sneImm x nn => encodeFI 0x4 x nn
  | .seReg x y => encodeFR 0x5 x y 0x0
  | .ldImm x nn => encodeFI 0x6 x nn
  | .addImm x nn => encodeFI 0x7 x nn
  | .ldReg x y => encodeFR 0x8 x y 0x0
  | .or x y => encodeFR 0x8 x y 0x1
  | .and x y => encodeFR 0x8 x y 0x2
  | .xor x y => encodeFR 0x8 x y 0x3
  | .addReg x y => encodeFR 0x8 x y 0x4
  | .sub x y => encodeFR 0x8 x y 0x5
  | .shr x => encodeFR 0x8 x 0 0x6
  | .subn x y => encodeFR 0x8 x y 0x7
  | .shl x => encodeFR 0x8 x 0 0xE
  | .sneReg x y => encodeFR 0x9 x y 0x0
  | .ldI nnn => encodeFA 0xA nnn
  | .jpV0 nnn => encodeFA 0xB nnn
  | .rnd x nn => encodeFI 0xC x nn
  | .drw x y n => encodeFR 0xD x y (BitVec.ofNat 4 n)
  | .skp x => encodeFS 0xE x 0x9E
  | .sknp x => encodeFS 0xE x 0xA1
  | .ldVxDt x => encodeFS 0xF x 0x07
  | .ldVxK x => encodeFS 0xF x 0x0A
  | .ldDtVx x => encodeFS 0xF x 0x15
  | .ldStVx x => encodeFS 0xF x 0x18
  | .addIVx x => encodeFS 0xF x 0x1E
  | .ldFVx x => encodeFS 0xF x 0x29
  | .ldBVx x => encodeFS 0xF x 0x33
  | .ldMemVx x => encodeFS 0xF x 0x55
  | .ldVxMem x => encodeFS 0xF x 0x65

/-! ## The opcode map as a table (R108) -/

/-- One row of the opcode map: a word belongs to the row when its bits under `mask` are `pattern` (R108). -/
structure OpcodeRow where
  /-- The row's mnemonic in spec/opcode_table.json (R116). -/
  mnemonic : String
  /-- The row's match value. -/
  pattern : Word
  /-- The bits that select the row. -/
  mask : Word
deriving DecidableEq, Repr

/-- The row of an instruction in the opcode map (R108). -/
def Instr.row : Instr → OpcodeRow
  | .cls => ⟨"CLS", 0x00E0, 0xFFFF⟩
  | .ret => ⟨"RET", 0x00EE, 0xFFFF⟩
  | .jp _ => ⟨"JP", 0x1000, 0xF000⟩
  | .call _ => ⟨"CALL", 0x2000, 0xF000⟩
  | .seImm _ _ => ⟨"SE_IMM", 0x3000, 0xF000⟩
  | .sneImm _ _ => ⟨"SNE_IMM", 0x4000, 0xF000⟩
  | .seReg _ _ => ⟨"SE_REG", 0x5000, 0xF000⟩
  | .ldImm _ _ => ⟨"LD_IMM", 0x6000, 0xF000⟩
  | .addImm _ _ => ⟨"ADD_IMM", 0x7000, 0xF000⟩
  | .ldReg _ _ => ⟨"LD_REG", 0x8000, 0xF00F⟩
  | .or _ _ => ⟨"OR", 0x8001, 0xF00F⟩
  | .and _ _ => ⟨"AND", 0x8002, 0xF00F⟩
  | .xor _ _ => ⟨"XOR", 0x8003, 0xF00F⟩
  | .addReg _ _ => ⟨"ADD_REG", 0x8004, 0xF00F⟩
  | .sub _ _ => ⟨"SUB", 0x8005, 0xF00F⟩
  | .shr _ => ⟨"SHR", 0x8006, 0xF00F⟩
  | .subn _ _ => ⟨"SUBN", 0x8007, 0xF00F⟩
  | .shl _ => ⟨"SHL", 0x800E, 0xF00F⟩
  | .sneReg _ _ => ⟨"SNE_REG", 0x9000, 0xF000⟩
  | .ldI _ => ⟨"LD_I", 0xA000, 0xF000⟩
  | .jpV0 _ => ⟨"JP_V0", 0xB000, 0xF000⟩
  | .rnd _ _ => ⟨"RND", 0xC000, 0xF000⟩
  | .drw _ _ _ => ⟨"DRW", 0xD000, 0xF000⟩
  | .skp _ => ⟨"SKP", 0xE09E, 0xF0FF⟩
  | .sknp _ => ⟨"SKNP", 0xE0A1, 0xF0FF⟩
  | .ldVxDt _ => ⟨"LD_VX_DT", 0xF007, 0xF0FF⟩
  | .ldVxK _ => ⟨"LD_VX_K", 0xF00A, 0xF0FF⟩
  | .ldDtVx _ => ⟨"LD_DT_VX", 0xF015, 0xF0FF⟩
  | .ldStVx _ => ⟨"LD_ST_VX", 0xF018, 0xF0FF⟩
  | .addIVx _ => ⟨"ADD_I_VX", 0xF01E, 0xF0FF⟩
  | .ldFVx _ => ⟨"LD_F_VX", 0xF029, 0xF0FF⟩
  | .ldBVx _ => ⟨"LD_B_VX", 0xF033, 0xF0FF⟩
  | .ldMemVx _ => ⟨"LD_MEM_VX", 0xF055, 0xF0FF⟩
  | .ldVxMem _ => ⟨"LD_VX_MEM", 0xF065, 0xF0FF⟩

/-- A word belongs to a row of the opcode map (R108). -/
def OpcodeRow.matches (r : OpcodeRow) (w : Word) : Bool := w &&& r.mask == r.pattern

/-- The 34 rows of the opcode map, in the table's order (R108, R109); the operands given to the constructors do not
matter to the row. -/
def opcodeMap : List OpcodeRow :=
  [ .cls, .ret, .jp 0, .call 0, .seImm 0 0, .sneImm 0 0, .seReg 0 0, .ldImm 0 0, .addImm 0 0, .ldReg 0 0, .or 0 0,
    .and 0 0, .xor 0 0, .addReg 0 0, .sub 0 0, .shr 0, .subn 0 0, .shl 0, .sneReg 0 0, .ldI 0, .jpV0 0, .rnd 0 0,
    .drw 0 0 0, .skp 0, .sknp 0, .ldVxDt 0, .ldVxK 0, .ldDtVx 0, .ldStVx 0, .addIVx 0, .ldFVx 0, .ldBVx 0, .ldMemVx 0,
    .ldVxMem 0 ].map Instr.row

end Sys2Proof
end

