-- ==== Sys2Proof/Machine/State.lean ====
section
/-! DEFINITION. The state of CORE (R30): every element of the spec's tuple, the transient opcode register, the output of the latest tick and the counter of the model's free values; the reasons to stop; the state after reset (R350). -/

namespace Sys2Proof.Machine

/-- The fatal conditions of R300, each with the information it records (codes 2 to 7, decision D16). -/
inductive Fatal where
  /-- Code 2: CALL with 16 entries in use (R182). -/
  | stackOverflow
  /-- Code 3: RET with no entry in use (R180). -/
  | stackUnderflow
  /-- Code 4: a fetch above 0xFFE (R141). -/
  | fetchOutOfRange
  /-- Code 5: a data access at address `a`, the lowest one out of range (R75, R305). -/
  | memOutOfRange (a : Nat)
  /-- Code 6: SKP or SKNP with a key index above 0xF (R280, R281). -/
  | keyIndexOutOfRange (k : Byte)
  /-- Code 7: FX1E with a sum `t` above 0xFFFF (R251). -/
  | indexOverflow (t : Nat)
deriving DecidableEq, Repr

/-- What HALT records: the condition with its information, the PC and the fetched word, absent when the fetch itself
failed (R53, R150). -/
structure HaltRecord where
  cond : Fatal
  pc : Word
  op : Option Word
deriving DecidableEq, Repr

/-- What REFUSED records: the PC and the word (R54, R306). -/
structure RefusalRecord where
  pc : Word
  op : Word
deriving DecidableEq, Repr

/-- An output event of a tick (R332). -/
inductive Event where
  /-- `Diagnostic(UnknownOpcode, PC, op)` (R148). -/
  | unknownOpcode (pc op : Word)
  /-- `SoundStop`, the edge of ST from 1 to 0 (R146). -/
  | soundStop
deriving DecidableEq, Repr

/-- MEM as the bytes that differ from what an unlisted address reads as, in rising order of address (R70). -/
abbrev Memory := List Host.Cell

/-- FB: 2048 cells, each 0 or 1; cell `k` is column `k mod 64` of row `k div 64` (R46). -/
abbrev Framebuffer := Vector Bool Config.cells

/-- The state of CORE between two ticks, and inside one (R30). -/
@[ext]
structure State where
  /-- MEM (R70). -/
  mem : Memory
  /-- V0 to VF (R31); VF is also the flag (R32). -/
  v : Vector Byte 16
  /-- I, 16 bits of storage (R35). -/
  i : Word
  /-- PC (R37). -/
  pc : Word
  /-- STACK (R41). -/
  stack : Vector Word 16
  /-- SP, the number of entries in use, 0 to 16 (R42). -/
  sp : Fin 17
  /-- DT (R44). -/
  dt : Byte
  /-- ST (R45). -/
  st : Byte
  /-- FB (R46). -/
  fb : Framebuffer
  /-- REDRAW (R47). -/
  redraw : Bool
  /-- KEY (R48). -/
  key : Vector Bool 16
  /-- KLATCH, a 4-bit key index (R49). -/
  klatch : Key
  /-- KFLAG (R50). -/
  kflag : Bool
  /-- JUMP (R51). -/
  jump : Bool
  /-- AWAIT (R52). -/
  await : Bool
  /-- HALT (R53). -/
  halt : Option HaltRecord
  /-- REFUSED, the model's mark (R54). -/
  refused : Option RefusalRecord
  /-- The opcode register: the fetched word inside a tick, nothing between ticks (R55; log 7). -/
  op : Option Word
  /-- The events that the latest tick emitted, in order (R332; log 6). -/
  events : List Event
  /-- The model's own field: how many bytes CXNN has drawn, which numbers the free values of RAND (R223; log 3). -/
  draws : Nat
deriving DecidableEq, Repr

/-- Why the model counts a run as faulted. Neither `exec` nor `step` answers with one: a fatal condition is a next
state that holds its record (R150), and a tick of a halted block changes nothing (R304). -/
inductive Fault where
  /-- Given by `State.verdict` of Safety.lean for a state whose HALT is set: "In the model a halted state is a fault"
  (R304). Safe: a claim about such a run cannot be proved. -/
  | halted (r : HaltRecord)
deriving DecidableEq, Repr

/-- Why the model gives no meaning. -/
inductive Refusal where
  /-- Given by an arm of `exec` for an instruction without a meaning; no arm does. Safe. -/
  | notModelled (mnemonic : String)
  /-- Given by `State.verdict` of Safety.lean for a state whose REFUSED is set: "no claim about it can be proved"
  (R306). Neither `exec` nor `step` answers with it. Safe. -/
  | openWord (r : RefusalRecord)
deriving DecidableEq, Repr

/-- What a meaning and a step answer with. -/
abbrev Result := Host.Outcome State Fault Refusal

/-- The state after `reset()` (R350). Memory lists nothing: an unlisted address reads as its reset content. -/
def State.reset : State where
  mem := []
  v := Vector.replicate 16 0
  i := 0
  pc := 0x200
  stack := Vector.replicate 16 0
  sp := 0
  dt := 0
  st := 0
  fb := Vector.replicate Config.cells false
  redraw := false
  key := Vector.replicate 16 false
  klatch := 0
  kflag := false
  jump := false
  await := false
  halt := none
  refused := none
  op := none
  events := []
  draws := 0

end Sys2Proof.Machine
end

