-- ==== Sys2Proof/Machine/Ops.lean ====
section
/-! DEFINITION. The named operations that the meanings share: memory, registers, the return stack, raising a fatal condition, jumps and skips, the random draw. -/

namespace Sys2Proof.Machine

/-! ## Memory (R70, R71, R81) -/

/-- What an address reads as while nothing has written it: its content after reset, FONT below 0x050 and 0 from there
on (R71, R350). -/
def Memory.unlisted (a : Nat) : Byte := if h : a < Config.fontSize then Config.font ⟨a, h⟩ else 0

/-- `MemRead(a, 1)` (R16). -/
def Memory.read : Memory → Nat → Byte
  | [], a => Memory.unlisted a
  | (k, b) :: m, a => if a = k then b else Memory.read m a

/-- The entry for byte `b` at address `a` in front of `m`: none when an unlisted address reads as `b` anyway. -/
def Memory.entry (a : Nat) (b : Byte) (m : Memory) : Memory := if b = Memory.unlisted a then m else (a, b) :: m

/-- `MemWrite(a, 1, b)` (R16), keeping the canonical form. -/
def Memory.write (a : Nat) (b : Byte) : Memory → Memory
  | [] => Memory.entry a b []
  | (k, c) :: m =>
    if a < k then Memory.entry a b ((k, c) :: m)
    else if a = k then Memory.entry a b m
    else (k, c) :: Memory.write a b m

/-- Write the bytes in order from address `a` upward (R79, ascending). -/
def Memory.writeAll (a : Nat) : List Byte → Memory → Memory
  | [], m => m
  | b :: bs, m => Memory.writeAll (a + 1) bs (Memory.write a b m)

/-- The canonical form from address `lo` on: strictly rising addresses that exist, and no entry that equals what its
address reads as unlisted. -/
def Memory.wfFrom : Nat → Memory → Bool
  | _, [] => true
  | lo, (k, b) :: m => decide (lo ≤ k) && decide (k < Config.memSize) && (b != Memory.unlisted k) && Memory.wfFrom (k + 1) m

/-- Memory is in its one canonical form, so that equal memories are equal data. -/
def Memory.wf (m : Memory) : Bool := Memory.wfFrom 0 m

/-! ## Registers (R31, R42) -/

/-- VF, the register that doubles as the flag (R32). -/
abbrev vF : Reg := 15

/-- Read general register `x` (R14). -/
def State.getV (s : State) (x : Reg) : Byte := s.v[x]

/-- Write general register `x` (R14). -/
def State.setV (s : State) (x : Reg) (b : Byte) : State := { s with v := s.v.set x b }

/-! ## Fatal conditions (R302, R303) -/

/-- `raise C(info)`: record the condition, the PC and the fetched word in HALT, and change nothing else (R150, R302).
There is no handler and no return: only the host's reset clears HALT (R304, R308, R309). -/
def State.raise (s : State) (c : Fatal) : State := { s with halt := some ⟨c, s.pc, s.op⟩ }

/-- The number of a fatal condition in the list of conditions; 1 is the non-fatal UnknownOpcode (R300, decision D16). -/
def Fatal.code : Fatal → Nat
  | .stackOverflow => 2
  | .stackUnderflow => 3
  | .fetchOutOfRange => 4
  | .memOutOfRange _ => 5
  | .keyIndexOutOfRange _ => 6
  | .indexOverflow _ => 7

/-! ## Control flow (R144, R151) -/

/-- `PC <- t` of a jump, call or return, with JUMP (R17). -/
def State.jumpTo (s : State) (t : Word) : State := { s with pc := t, jump := true }

/-- A skip: the extra `PC <- PC + 2` when the condition holds, without JUMP (R151). -/
def State.skipIf (s : State) (c : Bool) : State := if c then { s with pc := s.pc + 2 } else s

/-- Push a return address: `STACK[SP] <- t; SP <- SP + 1`, or StackOverflow with 16 entries in use (R42, R182). -/
def State.pushThen (s : State) (t : Word) (k : State → State) : Result :=
  if h : s.sp.val < 16 then
    .next (k { s with stack := s.stack.set s.sp.val t, sp := ⟨s.sp.val + 1, by omega⟩ })
  else .next (s.raise .stackOverflow)

/-- Pop a return address: `SP <- SP - 1`, read STACK[SP], zero the slot; StackUnderflow with no entry in use (R42,
R180). -/
def State.popThen (s : State) (k : Word → State → State) : Result :=
  if h : s.sp.val = 0 then .next (s.raise .stackUnderflow)
  else
    .next (k (s.stack[s.sp.val - 1]'(by omega))
      { s with stack := s.stack.set (s.sp.val - 1) 0 (by omega), sp := ⟨s.sp.val - 1, by omega⟩ })

/-! ## The random byte (R223) -/

/-- The byte that the next draw gives (R223; log 3). -/
def State.randByte (s : State) : Byte := Config.rand s.draws

/-- Note that a byte has been drawn, so that the next draw is a fresh one. -/
def State.drawn (s : State) : State := { s with draws := s.draws + 1 }

end Sys2Proof.Machine
end

