-- ==== Sys2Proof/Machine/Operands.lean ====
section
/-! DEFINITION. The operand forms: registers and immediates are read as they stand; here are the memory operand [I] with its check (R75, R80), the offset target NNN + V0 (R187), the key index V[x] (R280) and the font address (R252). -/

namespace Sys2Proof.Machine

/-- The address `I + k`, an exact integer (R75). -/
def State.dataAddr (s : State) (k : Nat) : Nat := s.i.toNat + k

/-- Of the addresses I, I+1, ..., I+n-1, the lowest that does not exist (R75, R305). -/
def State.firstOutOfRange (s : State) (n : Nat) : Option Nat :=
  ((List.range n).map s.dataAddr).find? (fun a => decide (Config.memSize ≤ a))

/-- An instruction that accesses the `n` bytes from I: every address is checked before any state changes (R80), and
MemOutOfRange names the lowest bad one (R75). -/
def State.checkedAccess (s : State) (n : Nat) (t : State) : Result :=
  match s.firstOutOfRange n with
  | some a => .next (s.raise (.memOutOfRange a))
  | none => .next t

/-- The bytes at I, I+1, ..., I+n-1 (R79). -/
def State.readFromI (s : State) (n : Nat) : List Byte := (List.range n).map (fun k => s.mem.read (s.dataAddr k))

/-- Write the bytes at I, I+1, ... in ascending order (R79). -/
def State.writeFromI (s : State) (bs : List Byte) : State := { s with mem := s.mem.writeAll (s.dataAddr 0) bs }

/-- The target `NNN + V0`, zero-extended to 16 bits and not reduced modulo 4096 (R187). -/
def State.offsetTarget (s : State) (nnn : Word) : Word := nnn + (s.getV 0).setWidth 16

/-- An instruction that reads KEY[V[x]]: KeyIndexOutOfRange when there is no such key (R280). -/
def State.withKey (s : State) (x : Reg) (k : Bool → State) : Result :=
  if h : (s.getV x).toNat < 16 then .next (k s.key[(s.getV x).toNat])
  else .next (s.raise (.keyIndexOutOfRange (s.getV x)))

/-- The address of the glyph for `d`: `d * 5`, exact and not reduced to a low nibble (R252). -/
def glyphAddr (d : Byte) : Word := BitVec.ofNat 16 (d.toNat * Config.glyphBytes)

/-- The three decimal digits of a byte: hundreds, tens, ones (R253). -/
def decimalDigits (b : Byte) : List Byte :=
  [BitVec.ofNat 8 (b.toNat / 100), BitVec.ofNat 8 (b.toNat / 10 % 10), BitVec.ofNat 8 (b.toNat % 10)]

end Sys2Proof.Machine
end

