-- ==== Sys2Proof/Machine/Flags.lean ====
section
/-! DEFINITION. Everything that computes VF as a flag (R33), and the open order of the flag write and the result write (R211). -/

namespace Sys2Proof.Machine

/-- `bool(c)` as a byte: 1 if the condition holds, else 0 (R15). -/
def boolByte (c : Bool) : Byte := if c then 1 else 0

/-- Carry of `a + b`: `b > 255 - a` (R218). -/
def carryFlag (a b : Byte) : Bool := decide (b.toNat > 255 - a.toNat)

/-- Not-borrow of `a - b`: `a >= b` (R219). -/
def notBorrowFlag (a b : Byte) : Bool := decide (a.toNat ≥ b.toNat)

/-- The bit that a right shift moves out: bit 0 (R220). -/
def lowBitFlag (a : Byte) : Bool := a.getLsbD 0

/-- The bit that a left shift moves out: bit 7 (R222). -/
def highBitFlag (a : Byte) : Bool := a.getLsbD 7

/-- The index passes 0xFFF, in exact integers (R251). -/
def indexFlag (i : Word) (b : Byte) : Bool := decide (i.toNat + b.toNat > 0xFFF)

/-- The order that matters to an instruction on registers `x` and `y`: the block's own order when one of them is VF.
Otherwise the two orders agree (R211, and `flagged_order_irrelevant`), and one is named so that the step evaluates. -/
def orderFor (x y : Reg) : VfWriteOrder := if x = vF ∨ y = vF then Config.vfWriteOrder else .flagFirst

/-- An instruction that writes a result to V[x] and a flag to VF, in one of the two orders (R211). -/
def State.flagged (s : State) (order : VfWriteOrder) (x y : Reg) (flag : Byte → Byte → Bool)
    (result : Byte → Byte → Byte) : State :=
  match order with
  | .flagFirst =>
    let t := s.setV vF (boolByte (flag (s.getV x) (s.getV y)))
    t.setV x (result (t.getV x) (t.getV y))
  | .operandsFirst =>
    let a := s.getV x
    let b := s.getV y
    (s.setV x (result a b)).setV vF (boolByte (flag a b))

/-- What FX1E adds to I: V[x], or the new VF when x = 0xF and the flag is written first (R251). -/
def State.indexAddend (s : State) (order : VfWriteOrder) (x : Reg) : Byte :=
  match order with
  | .flagFirst => if x = vF then boolByte (indexFlag s.i (s.getV x)) else s.getV x
  | .operandsFirst => s.getV x

/-- FX1E in one of the two orders: IndexOverflow when the sum does not fit 16 bits, with no change (R251). -/
def State.addIndex (s : State) (order : VfWriteOrder) (x : Reg) : Result :=
  let t := s.i.toNat + (s.indexAddend order x).toNat
  if t > 0xFFFF then .next (s.raise (.indexOverflow t))
  else .next { s.setV vF (boolByte (indexFlag s.i (s.getV x))) with i := BitVec.ofNat 16 t }

end Sys2Proof.Machine
end

