-- ==== Sys2Proof/Machine/Alu.lean ====
section
/-! DEFINITION. Register and arithmetic instructions (R210 to R223); all of them unsigned and wrapping modulo 256. -/

namespace Sys2Proof.Machine

/-- LD Vx, NN (R212). -/
def execLdImm (x : Reg) (nn : Byte) (s : State) : Result := .next (s.setV x nn)

/-- ADD Vx, NN: no flag (R213). -/
def execAddImm (x : Reg) (nn : Byte) (s : State) : Result := .next (s.setV x (s.getV x + nn))

/-- LD Vx, Vy (R214). -/
def execLdReg (x y : Reg) (s : State) : Result := .next (s.setV x (s.getV y))

/-- OR Vx, Vy (R215). -/
def execOr (x y : Reg) (s : State) : Result := .next (s.setV x (s.getV x ||| s.getV y))

/-- AND Vx, Vy (R216). -/
def execAnd (x y : Reg) (s : State) : Result := .next (s.setV x (s.getV x &&& s.getV y))

/-- XOR Vx, Vy (R217). -/
def execXor (x y : Reg) (s : State) : Result := .next (s.setV x (s.getV x ^^^ s.getV y))

/-- ADD Vx, Vy: VF is the carry (R218). -/
def execAddReg (x y : Reg) (s : State) : Result :=
  .next (s.flagged (orderFor x y) x y carryFlag (fun a b => a + b))

/-- SUB Vx, Vy: VF is not-borrow (R219). -/
def execSub (x y : Reg) (s : State) : Result :=
  .next (s.flagged (orderFor x y) x y notBorrowFlag (fun a b => a - b))

/-- SHR Vx: VF is the bit shifted out; Vy is not read (R220). -/
def execShr (x : Reg) (s : State) : Result :=
  .next (s.flagged (orderFor x x) x x (fun a _ => lowBitFlag a) (fun a _ => a >>> 1))

/-- SUBN Vx, Vy: VF is not-borrow of Vy - Vx (R221). -/
def execSubn (x y : Reg) (s : State) : Result :=
  .next (s.flagged (orderFor x y) x y (fun a b => notBorrowFlag b a) (fun a b => b - a))

/-- SHL Vx: VF is the bit shifted out; Vy is not read (R222). -/
def execShl (x : Reg) (s : State) : Result :=
  .next (s.flagged (orderFor x x) x x (fun a _ => highBitFlag a) (fun a _ => a <<< 1))

/-- RND Vx, NN: a fresh random byte AND the immediate (R223). -/
def execRnd (x : Reg) (nn : Byte) (s : State) : Result := .next (s.drawn.setV x (s.randByte &&& nn))

end Sys2Proof.Machine
end

