-- ==== Sys2Proof/Machine/Display.lean ====
section
/-! DEFINITION. Display instructions: CLS and DRW (R160 to R163). -/

namespace Sys2Proof.Machine

/-- `CellIndex(cx, cy, r, c)`: one linear wraparound over the whole framebuffer (R162). -/
def cellIndex (cx cy r c : Nat) : Fin Config.cells :=
  ⟨((cy + r) * Config.displayWidth + cx + c) % Config.cells, Nat.mod_lt _ (by decide)⟩

/-- The bit of a sprite byte for column `c`, the most significant bit first (R161). -/
def spriteBit (b : Byte) (c : Nat) : Bool := b.getLsbD (7 - c)

/-- XOR one sprite bit into its cell, and note a cell that goes from 1 to 0 (R161, R163). -/
def drawCell (cx cy r : Nat) (b : Byte) (p : Framebuffer × Bool) (c : Nat) : Framebuffer × Bool :=
  (p.1.set (cellIndex cx cy r c) (p.1[cellIndex cx cy r c] ^^ spriteBit b c),
    p.2 || (spriteBit b c && p.1[cellIndex cx cy r c]))

/-- Draw the eight bits of one sprite byte (R161). -/
def drawRow (cx cy r : Nat) (b : Byte) (p : Framebuffer × Bool) : Framebuffer × Bool :=
  (List.range 8).foldl (drawCell cx cy r b) p

/-- Draw the sprite bytes as rows `r`, `r + 1`, ... (R161). -/
def drawRows (cx cy : Nat) : Nat → List Byte → Framebuffer × Bool → Framebuffer × Bool
  | _, [], p => p
  | r, b :: bs, p => drawRows cx cy (r + 1) bs (drawRow cx cy r b p)

/-- CLS (R160). -/
def execCls (s : State) : Result := .next { s with fb := Vector.replicate Config.cells false, redraw := true }

/-- DRW Vx, Vy, N (R161): the coordinates are read before VF is written (D13), all addresses are checked first, VF is
the collision, and REDRAW is always set. -/
def execDrw (x y : Reg) (n : Nat) (s : State) : Result :=
  let drawing := drawRows (s.getV x).toNat (s.getV y).toNat 0 (s.readFromI n) (s.fb, false)
  s.checkedAccess n { s.setV vF (boolByte drawing.2) with fb := drawing.1, redraw := true }

end Sys2Proof.Machine
end

