-- ==== Sys2Proof/Machine/Flow.lean ====
section
/-! DEFINITION. Control-flow instructions: RET, JP, CALL, JP_V0 and the skips on registers and immediates (R180 to R188). -/

namespace Sys2Proof.Machine

/-- RET (R180). -/
def execRet (s : State) : Result := s.popThen (fun t s' => s'.jumpTo t)

/-- JP NNN (R181). -/
def execJp (nnn : Word) (s : State) : Result := .next (s.jumpTo nnn)

/-- CALL NNN: the pushed value is the return address PC + 2 (R182, D10). -/
def execCall (nnn : Word) (s : State) : Result := s.pushThen (s.pc + 2) (fun s' => s'.jumpTo nnn)

/-- SE Vx, NN (R183). -/
def execSeImm (x : Reg) (nn : Byte) (s : State) : Result := .next (s.skipIf (s.getV x == nn))

/-- SNE Vx, NN (R184). -/
def execSneImm (x : Reg) (nn : Byte) (s : State) : Result := .next (s.skipIf (s.getV x != nn))

/-- SE Vx, Vy (R185). -/
def execSeReg (x y : Reg) (s : State) : Result := .next (s.skipIf (s.getV x == s.getV y))

/-- SNE Vx, Vy (R186). -/
def execSneReg (x y : Reg) (s : State) : Result := .next (s.skipIf (s.getV x != s.getV y))

/-- JP V0, NNN (R187). -/
def execJpV0 (nnn : Word) (s : State) : Result := .next (s.jumpTo (s.offsetTarget nnn))

end Sys2Proof.Machine
end

