-- ==== Sys2Proof/Machine/Index.lean ====
section
/-! DEFINITION. Index and memory instructions (R250 to R256). -/

namespace Sys2Proof.Machine

/-- LD I, NNN (R250). -/
def execLdI (nnn : Word) (s : State) : Result := .next { s with i := nnn }

/-- ADD I, Vx: VF tells that the sum passes 0xFFF; I is not masked (R251). -/
def execAddIVx (x : Reg) (s : State) : Result := s.addIndex (orderFor x x) x

/-- LD F, Vx (R252). -/
def execLdFVx (x : Reg) (s : State) : Result := .next { s with i := glyphAddr (s.getV x) }

/-- LD B, Vx: the decimal digits at I, I+1, I+2 (R253). -/
def execLdBVx (x : Reg) (s : State) : Result := s.checkedAccess 3 (s.writeFromI (decimalDigits (s.getV x)))

/-- LD [I], Vx: V0 to Vx at I upward, then I + x + 1 (R254). -/
def execLdMemVx (x : Reg) (s : State) : Result :=
  s.checkedAccess (x.val + 1)
    { s.writeFromI (s.v.toList.take (x.val + 1)) with i := s.i + BitVec.ofNat 16 (x.val + 1) }

/-- LD Vx, [I]: V0 to Vx from I upward, then I + x + 1 (R255). -/
def execLdVxMem (x : Reg) (s : State) : Result :=
  s.checkedAccess (x.val + 1)
    { s with
      v := Vector.ofFn (fun z : Reg => if z ≤ x then s.mem.read (s.dataAddr z.val) else s.getV z)
      i := s.i + BitVec.ofNat 16 (x.val + 1) }

end Sys2Proof.Machine
end

