-- ==== Sys2Proof/Machine/KeysTimers.lean ====
section
/-! DEFINITION. Key and timer instructions (R280 to R285). -/

namespace Sys2Proof.Machine

/-- SKP Vx: skip if key V[x] is pressed (R280). -/
def execSkp (x : Reg) (s : State) : Result := s.withKey x (fun pressed => s.skipIf pressed)

/-- SKNP Vx: skip if key V[x] is not pressed (R281). -/
def execSknp (x : Reg) (s : State) : Result := s.withKey x (fun pressed => s.skipIf (!pressed))

/-- LD Vx, DT (R282). -/
def execLdVxDt (x : Reg) (s : State) : Result := .next (s.setV x s.dt)

/-- LD Vx, K: take the latched key, or wait by not advancing the PC (R283). -/
def execLdVxK (x : Reg) (s : State) : Result :=
  if s.kflag then .next { s.setV x (BitVec.ofNat 8 s.klatch.val) with kflag := false }
  else .next { s with await := true, jump := true }

/-- LD DT, Vx (R284). -/
def execLdDtVx (x : Reg) (s : State) : Result := .next { s with dt := s.getV x }

/-- LD ST, Vx (R285). -/
def execLdStVx (x : Reg) (s : State) : Result := .next { s with st := s.getV x }

end Sys2Proof.Machine
end

