-- ==== Sys2Proof/Machine/Cycle.lean ====
section
/-! DEFINITION. The steps of the cycle around the instruction: step 1, fetch, and steps 4 to 7 (R140 to R152). -/

namespace Sys2Proof.Machine

/-- A tick of a halted or refused block: nothing changes and nothing is emitted (R304, R306). -/
def State.idleTick (s : State) : State := { s with events := [] }

/-- The block runs: neither HALT nor REFUSED is set (R152). -/
def State.running (s : State) : Bool := s.halt.isNone && s.refused.isNone

/-- Step 1: clear JUMP, REDRAW and AWAIT (R142). The event list and the opcode register start empty (R55, R332). -/
def State.beginTick (s : State) : State :=
  { s with jump := false, redraw := false, await := false, events := [], op := none }

/-- Step 2: the word at PC, big-endian, or none when the fetch is out of range (R141). -/
def State.fetch (s : State) : Option Word :=
  if s.pc.toNat > 0xFFE then none
  else some (wordOfBytes (s.mem.read s.pc.toNat) (s.mem.read (s.pc.toNat + 1)))

/-- Append an event to the tick's list (R152, R332). -/
def State.emit (s : State) (e : Event) : State := { s with events := s.events ++ [e] }

/-- Step 4: `if JUMP = 0: PC <- PC + 2` (R144). -/
def State.advancePc (s : State) : State := if s.jump then s else { s with pc := s.pc + 2 }

/-- Step 5: decrement DT if it is above 0 (R145). -/
def State.tickDelay (s : State) : State := if s.dt = 0 then s else { s with dt := s.dt - 1 }

/-- Step 6: decrement ST if it is above 0, with `SoundStop` on the edge from 1 to 0 (R146). -/
def State.tickSound (s : State) : State :=
  if s.st = 0 then s
  else if s.st = 1 then { s with st := 0 }.emit .soundStop
  else { s with st := s.st - 1 }

/-- Step 7: clear KFLAG and leave KLATCH as it is (R147). -/
def State.clearKeyFlag (s : State) : State := { s with kflag := false }

/-- The tick is over: the opcode register holds nothing between ticks (R55). -/
def State.endTick (s : State) : State := { s with op := none }

/-- Steps 4 to 7 in order (R140, R152), and the end of the tick. -/
def State.finishTick (s : State) : State := s.advancePc.tickDelay.tickSound.clearKeyFlag.endTick

/-- After step 3: a fatal condition ends the tick at once, so that steps 4 to 7 do not run (R150). -/
def State.afterExec (s : State) : State := if s.halt.isSome then s.endTick else s.finishTick

/-- Step 3 for a word that is no instruction: the diagnostic, and steps 4 to 7 as usual (R148). -/
def State.unknownWord (s : State) (w : Word) : State := (s.emit (.unknownOpcode s.pc w)).finishTick

/-- Step 3 for a word that the spec gives no meaning: record it and stop (R152, R306). -/
def State.refuseWord (s : State) (w : Word) : State := { s with refused := some ⟨s.pc, w⟩ }.endTick

end Sys2Proof.Machine
end

