-- ==== Sys2Proof/Machine/Step.lean ====
section
/-! DEFINITION. One tick (R152), and placing an instruction where the next tick fetches it. -/

namespace Sys2Proof.Machine

/-- Step 3 for the word that step 2 fetched (R143). -/
def runWord (w : Word) (s : State) : Host.Outcome State Fault Refusal :=
  match decode w with
  | .instr i =>
    match exec i { s with op := some w } with
    | .next t => .next t.afterExec
    | .fault f => .fault f
    | .refused r => .refused r
  | .unknown => .next (s.unknownWord w)
  | .refused => .next (s.refuseWord w)

/-- `tick()` (R152). A block that is halted or refused does nothing; a fetch out of range halts (R141). -/
def step (s : State) : Host.Outcome State Fault Refusal :=
  if s.running then
    match s.beginTick.fetch with
    | none => .next (s.beginTick.raise .fetchOutOfRange)
    | some w => runWord w s.beginTick
  else .next s.idleTick

/-- `s` with the word `w` of `nbits` bits where the next tick fetches its instruction. For the tick to fetch at all,
the block must run and PC must allow a fetch: a halt or refusal is cleared, and a PC above 0xFFE becomes the entry
point; from reset none of this changes anything. -/
def State.withFetchWord (s : State) (nbits w : Nat) : State :=
  let a := if s.pc.toNat > 0xFFE then Config.progBase else s.pc.toNat
  { s with
    mem := s.mem.writeAll a [hiByte (tableWord nbits w), loByte (tableWord nbits w)]
    pc := BitVec.ofNat 16 a
    halt := none
    refused := none }

end Sys2Proof.Machine
end

