-- ==== Sys2Proof/Machine/Port.lean ====
section
/-! DEFINITION. The host's side of CORE between ticks: reset, load, key events and the read accessors (R330 to R334, R350 to R357). -/

namespace Sys2Proof.Machine

/-- What `load` answers (R352). `LoadError::Unreadable` is never produced by CORE (R354). -/
inductive LoadResult where
  /-- The image was copied. -/
  | ok
  /-- `LoadError::TooLarge`: the image is longer than 3584 bytes. -/
  | tooLarge
deriving DecidableEq, Repr

/-- What the host's accessors read (R330): FB, REDRAW, DT, ST, V, I, PC, SP and HALT. -/
structure HostView where
  fb : Framebuffer
  redraw : Bool
  dt : Byte
  st : Byte
  v : Vector Byte 16
  i : Word
  pc : Word
  sp : Fin 17
  halt : Option HaltRecord
deriving DecidableEq, Repr

/-- What the host can do between ticks, and the tick itself: the rows of the table of R334. -/
inductive HostAction where
  | reset
  | load (image : List Byte)
  | tick
  | press (k : Key)
  | release (k : Key)
  | read
deriving DecidableEq, Repr

/-- What the host gets back: the column "host gets" of R334. -/
inductive HostReply where
  /-- Nothing: reset, press and release. -/
  | nothing
  /-- The result of `load` (R352). -/
  | loaded (r : LoadResult)
  /-- The event list of a tick (R332). -/
  | ticked (events : List Event)
  /-- What the read accessors return (R330). -/
  | view (v : HostView)
deriving DecidableEq, Repr

/-- The block and where the host stands in the launch sequence of R355. -/
structure HostSession where
  state : State
  /-- `reset` has been called, and neither a program loaded nor a tick run since: only then does a `load` keep the
  duty "callers must reset before loading a new program" (R334, R356; log 26). -/
  mayLoad : Bool
deriving DecidableEq, Repr

/-- A reply, and the session after the action. -/
structure HostAnswer where
  reply : HostReply
  session : HostSession
deriving DecidableEq, Repr

/-- `reset()` by the host at any time (R350, R351). The count of random draws is no state of CORE and goes on, so that
draws after a reset have no relation to earlier ones (R223). -/
def State.hostReset (s : State) : State := { State.reset with draws := s.draws }

/-- `load(bytes)`: an image longer than 3584 bytes changes nothing; else it is copied from 0x200 upward (R352). -/
def State.load (s : State) (image : List Byte) : LoadResult × State :=
  if image.length > Config.progMax then (.tooLarge, s)
  else (.ok, { s with mem := s.mem.writeAll Config.progBase image })

/-- `press(k)`: the key is down; it is latched if no press is already latched (R333). -/
def State.press (s : State) (k : Key) : State :=
  if s.kflag then { s with key := s.key.set k true }
  else { s with key := s.key.set k true, klatch := k, kflag := true }

/-- `release(k)` (R333). -/
def State.release (s : State) (k : Key) : State := { s with key := s.key.set k false }

/-- The read accessors: reading has no side effect (R330). -/
def State.hostView (s : State) : HostView :=
  ⟨s.fb, s.redraw, s.dt, s.st, s.v, s.i, s.pc, s.sp, s.halt⟩

/-- A session as it begins, right after `reset()` (R350, R355). -/
def HostSession.start : HostSession := ⟨State.reset, true⟩

/-- `load` in a session that has been reset: a program that was copied must be reset away before the next load; one
that was too long changed nothing (R353). -/
def HostSession.load (h : HostSession) (image : List Byte) : HostAnswer :=
  match h.state.load image with
  | (.ok, t) => ⟨.loaded .ok, ⟨t, false⟩⟩
  | (.tooLarge, t) => ⟨.loaded .tooLarge, ⟨t, h.mayLoad⟩⟩

/-- `tick` with what it returns (R152, R332). -/
def HostSession.tick (h : HostSession) : Host.Outcome HostAnswer Fault Refusal :=
  match step h.state with
  | .next t => .next ⟨.ticked t.events, ⟨t, false⟩⟩
  | .fault f => .fault f
  | .refused r => .refused r

/-- One action of the host (R334), or `none` where it would break a duty: "a model gives no move for the host breaking
a duty". -/
def hostStep (a : HostAction) (h : HostSession) : Option (Host.Outcome HostAnswer Fault Refusal) :=
  match a with
  | .reset => some (.next ⟨.nothing, ⟨h.state.hostReset, true⟩⟩)
  | .load image => if h.mayLoad then some (.next (h.load image)) else none
  | .tick => some h.tick
  | .press k => some (.next ⟨.nothing, ⟨h.state.press k, h.mayLoad⟩⟩)
  | .release k => some (.next ⟨.nothing, ⟨h.state.release k, h.mayLoad⟩⟩)
  | .read => some (.next ⟨.view h.state.hostView, h⟩)

/-- The launch state of a program image: reset, then load (R355, R357). -/
def launch (image : List Byte) : State := (State.reset.load image).2

end Sys2Proof.Machine
end

