-- ==== Sys2Proof/Safety.lean ====
section
/-! DEFINITION. What counts as a fault, a refusal and a finished program (R304, R306, R358), and the invariant of the states between ticks. -/

namespace Sys2Proof.Machine

/-- How the model counts a state: "In the model a halted state is a fault: never a final state" (R304), and a refused
run "is neither final nor faulted" (R306). -/
def State.verdict (s : State) : Host.Outcome State Fault Refusal :=
  match s.halt, s.refused with
  | some r, _ => .fault (.halted r)
  | none, some r => .refused (.openWord r)
  | none, none => .next s

/-- A state a claim may be about: neither halted nor refused. -/
def State.sound (s : State) : Prop := s.halt = none ∧ s.refused = none

/-- A program has finished: the block is sound, and PC holds the address of a jump to itself (R304, R358). -/
def State.finished (s : State) : Prop := s.sound ∧ s.fetch = some (0x1000 ||| s.pc)

/-- What holds between ticks, in every state that a run from reset reaches: memory is in its canonical form; PC and the
return addresses stay where R40 and R182 put them; slots not in use are zero (R41, R180); the opcode register is empty
(R55); AWAIT comes with JUMP (R52, R283); HALT and REFUSED are never both set (R152), and a record's PC is still PC
(R303, R306). -/
structure State.Inv (s : State) : Prop where
  memory : s.mem.wf = true
  pcBound : s.pc.toNat ≤ 0x10FE
  returnBound : ∀ k : Fin 16, s.stack[k].toNat ≤ 0x1000
  freeSlots : ∀ k : Fin 16, s.sp.val ≤ k.val → s.stack[k] = 0
  noOpcode : s.op = none
  awaitJump : s.await = true → s.jump = true
  oneMark : s.halt = none ∨ s.refused = none
  haltPc : ∀ r, s.halt = some r → r.pc = s.pc
  refusedPc : ∀ r, s.refused = some r → r.pc = s.pc

/-- A session in which the host may load stands where reset left the block, but for key events since and the count of
random draws: so a load gives a launch state (R355 to R357). -/
def HostSession.LoadsOntoReset (h : HostSession) : Prop :=
  h.mayLoad = true → h.state = { State.reset with
    key := h.state.key, klatch := h.state.klatch, kflag := h.state.kflag, draws := h.state.draws }

end Sys2Proof.Machine
end

