-- ==== Sys2Proof/Certificates/Slice0/Obligations.lean ====
section
/-! DEFINITION. The statements for the provers, and the few predicates they are written in. -/

namespace Sys2Proof.Machine

/-! ## Frames -/

/-- The elements of the state, to say which of them an instruction leaves unchanged. -/
inductive Field where
  | mem | v | i | pc | stack | sp | dt | st | fb | redraw | key | klatch | kflag | jump | await | halt | refused | op
  | events | draws
deriving DecidableEq, Repr

/-- The element holds the same in both states: every byte of memory as it reads, every register, slot, cell and key. -/
def Field.same (s t : State) : Field → Prop
  | .mem => ∀ a, t.mem.read a = s.mem.read a
  | .v => ∀ r, t.getV r = s.getV r
  | .i => t.i = s.i
  | .pc => t.pc = s.pc
  | .stack => ∀ k : Fin 16, t.stack[k] = s.stack[k]
  | .sp => t.sp = s.sp
  | .dt => t.dt = s.dt
  | .st => t.st = s.st
  | .fb => ∀ k : Fin Config.cells, t.fb[k] = s.fb[k]
  | .redraw => t.redraw = s.redraw
  | .key => ∀ k : Key, t.key[k] = s.key[k]
  | .klatch => t.klatch = s.klatch
  | .kflag => t.kflag = s.kflag
  | .jump => t.jump = s.jump
  | .await => t.await = s.await
  | .halt => t.halt = s.halt
  | .refused => t.refused = s.refused
  | .op => t.op = s.op
  | .events => t.events = s.events
  | .draws => t.draws = s.draws

/-- Every element of the state that is not listed is unchanged. -/
def SameExcept (changed : List Field) (s t : State) : Prop := ∀ f : Field, f ∉ changed → f.same s t

/-- Register `x` receives `b`; every other register and every other element of the state is unchanged. -/
def WritesOnly (s t : State) (x : Reg) (b : Byte) : Prop :=
  t.getV x = b ∧ (∀ r, r ≠ x → t.getV r = s.getV r) ∧ SameExcept [.v] s t

/-- Every byte of memory outside the `n` bytes from address `a` reads as before. -/
def SameMemoryOutside (s t : State) (a n : Nat) : Prop := ∀ b, b < a ∨ a + n ≤ b → t.mem.read b = s.mem.read b

/-! ## Flags in the words of the spec -/

/-- `b` is `bool(c)`: 1 if the condition holds, else 0 (R15). -/
def IsBool (b : Byte) (c : Prop) : Prop := (c → b = 1) ∧ (¬ c → b = 0)

/-- The instruction on registers `x` and `y` writes `result` to V[x] and `flag` to VF in the given order, both
functions of exact integers, and changes nothing else (R211). With the flag first, the result is computed from the
registers as they are after VF has been written. -/
def FlaggedBy (order : VfWriteOrder) (s t : State) (x y : Reg) (flag : Nat → Nat → Prop)
    (result : Nat → Nat → Nat) : Prop :=
  (∃ f : Byte, IsBool f (flag (s.getV x).toNat (s.getV y).toNat) ∧
    match order with
    | .flagFirst =>
      (t.getV x).toNat = result (if x = vF then f.toNat else (s.getV x).toNat)
          (if y = vF then f.toNat else (s.getV y).toNat) ∧
        (x ≠ vF → t.getV vF = f)
    | .operandsFirst =>
      t.getV vF = f ∧ (x ≠ vF → (t.getV x).toNat = result (s.getV x).toNat (s.getV y).toNat)) ∧
    (∀ r, r ≠ x → r ≠ vF → t.getV r = s.getV r) ∧ SameExcept [.v] s t

/-- What FX1E adds to I in the given order: V[x], or with the flag first and x = 0xF the new VF (R251). -/
def IndexAddend (order : VfWriteOrder) (s : State) (x : Reg) (a : Nat) : Prop :=
  match order with
  | .flagFirst =>
    if x = vF then ∃ f : Byte, IsBool f (s.i.toNat + (s.getV x).toNat > 0xFFF) ∧ a = f.toNat
    else a = (s.getV x).toNat
  | .operandsFirst => a = (s.getV x).toNat

/-! ## Sprites in the words of the spec -/

/-- The bit of sprite row `r`, column `c`, with bit 7 of each byte the leftmost column (R161). -/
def SpriteBit (s : State) (r c : Nat) : Prop := (s.mem.read (s.i.toNat + r)).toNat / 2 ^ (7 - c) % 2 = 1

/-- Cell `k` is the one that row `r`, column `c` of a sprite at V[x], V[y] falls on (R162). -/
def FallsOn (s : State) (x y : Reg) (r c : Nat) (k : Fin Config.cells) : Prop :=
  k.val = (((s.getV y).toNat + r) * 64 + (s.getV x).toNat + c) % 2048

/-! ## Fetching -/

/-- Every fetch whose word has its first or its second byte at address `a` reads the value `b` there (R141). -/
def FetchedAt (t : State) (a b : Nat) : Prop :=
  ∀ p : Word, p.toNat ≤ 0xFFE → ∃ w, { t with pc := p }.fetch = some w ∧
    (p.toNat = a → w.toNat / 256 = b) ∧ (p.toNat + 1 = a → w.toNat % 256 = b)

/-! ## The registers of an instruction -/

/-- The instruction writes register `r` in some state (the table of R34). -/
def WritesReg : Instr → Reg → Prop
  | .ldImm x _, r => r = x
  | .addImm x _, r => r = x
  | .ldReg x _, r => r = x
  | .or x _, r => r = x
  | .and x _, r => r = x
  | .xor x _, r => r = x
  | .addReg x _, r => r = x ∨ r = vF
  | .sub x _, r => r = x ∨ r = vF
  | .shr x, r => r = x ∨ r = vF
  | .subn x _, r => r = x ∨ r = vF
  | .shl x, r => r = x ∨ r = vF
  | .rnd x _, r => r = x
  | .drw _ _ _, r => r = vF
  | .ldVxDt x, r => r = x
  | .ldVxK x, r => r = x
  | .addIVx _, r => r = vF
  | .ldVxMem x, r => r ≤ x
  | .cls, _ => False
  | .ret, _ => False
  | .jp _, _ => False
  | .call _, _ => False
  | .seImm _ _, _ => False
  | .sneImm _ _, _ => False
  | .seReg _ _, _ => False
  | .sneReg _ _, _ => False
  | .ldI _, _ => False
  | .jpV0 _, _ => False
  | .skp _, _ => False
  | .sknp _, _ => False
  | .ldDtVx _, _ => False
  | .ldStVx _, _ => False
  | .ldFVx _, _ => False
  | .ldBVx _, _ => False
  | .ldMemVx _, _ => False

/-- The instruction reads register `r` (the table of R34). -/
def ReadsReg : Instr → Reg → Prop
  | .seImm x _, r => r = x
  | .sneImm x _, r => r = x
  | .seReg x y, r => r = x ∨ r = y
  | .sneReg x y, r => r = x ∨ r = y
  | .addImm x _, r => r = x
  | .ldReg _ y, r => r = y
  | .or x y, r => r = x ∨ r = y
  | .and x y, r => r = x ∨ r = y
  | .xor x y, r => r = x ∨ r = y
  | .addReg x y, r => r = x ∨ r = y
  | .sub x y, r => r = x ∨ r = y
  | .subn x y, r => r = x ∨ r = y
  | .shr x, r => r = x
  | .shl x, r => r = x
  | .jpV0 _, r => r = 0
  | .drw x y _, r => r = x ∨ r = y
  | .skp x, r => r = x
  | .sknp x, r => r = x
  | .ldDtVx x, r => r = x
  | .ldStVx x, r => r = x
  | .addIVx x, r => r = x
  | .ldFVx x, r => r = x
  | .ldBVx x, r => r = x
  | .ldMemVx x, r => r ≤ x
  | .cls, _ => False
  | .ret, _ => False
  | .jp _, _ => False
  | .call _, _ => False
  | .ldImm _ _, _ => False
  | .rnd _ _, _ => False
  | .ldI _, _ => False
  | .ldVxDt _, _ => False
  | .ldVxK _, _ => False
  | .ldVxMem _, _ => False

/-- The bits of the instruction's word that are not ignored: the low nibble of 5XY_ and 9XY_ and the y field of 8XY6
and 8XYE are (R111, R220, R222). -/
def UsedBits : Instr → Word
  | .seReg _ _ => 0xFFF0
  | .sneReg _ _ => 0xFFF0
  | .shr _ => 0xFF0F
  | .shl _ => 0xFF0F
  | _ => 0xFFFF

/-- The block runs, and the tick fetches `w`. -/
def Fetches (s : State) (w : Word) : Prop := s.running = true ∧ s.fetch = some w

/-- The state in which the tick executes the word it fetched: step 1 is done, the opcode register holds the word. -/
def atExec (s : State) (w : Word) : State := { s.beginTick with op := some w }

end Sys2Proof.Machine

open Sys2Proof Sys2Proof.Machine

/-! ## Encoding -/

/-- Decoding the word of a well-formed instruction gives the instruction back, for all 34 instructions and every
operand. The places of x, y and NN in the word are the spec's from general knowledge (log 10). -/
def Obligations.DecodeOfEncodeIsTheInstruction : Prop :=
  ∀ i : Instr, i.wf = true → decode (encode i) = .instr i

/-- A word outside group 0x0 that decodes to an instruction is that instruction's own word, up to the bits that the
instruction ignores; and what decodes is well formed. The places of the fields are general knowledge (log 10). -/
def Obligations.DecodedWordIsItsEncodingUpToIgnoredBits : Prop :=
  ∀ (w : Word) (i : Instr), fieldG w ≠ 0 → decode w = .instr i → i.wf = true ∧ w &&& UsedBits i = encode i

/-- The opcode map has 34 rows (R109); a word that matches a row (R108) decodes to an instruction of that very row, so
no word matches two rows. The words 00E0 and 00EE are general knowledge (log 10). -/
def Obligations.WordOfARowDecodesToThatRowOnly : Prop :=
  opcodeMap.length = 34 ∧
    ∀ (w : Word) (r : OpcodeRow), r ∈ opcodeMap → r.matches w = true →
      (∃ i, decode w = .instr i ∧ i.row = r) ∧ ∀ r' ∈ opcodeMap, r'.matches w = true → r' = r

/-- The words that are no instruction are exactly those the spec lists for groups 0x0, 0x8, 0xE and 0xF (R112), with
the open words of group 0x0 as ZERO_GROUP_SELECT has them (log 4). -/
def Obligations.UnknownWordsAreExactlyTheListedOnes : Prop :=
  ∀ w : Word, decode w = .unknown ↔
    (fieldG w = 0x0 ∧ fieldN w ≠ 0x0 ∧ fieldN w ≠ 0xE) ∨
    (fieldG w = 0x0 ∧ (fieldN w = 0x0 ∨ fieldN w = 0xE) ∧ w ≠ 0x00E0 ∧ w ≠ 0x00EE ∧
      (Config.zeroGroupSelect = .exact ∨
        (Config.zeroGroupSelect = .lowByte ∧ fieldNN w ≠ 0xE0 ∧ fieldNN w ≠ 0xEE))) ∨
    (fieldG w = 0x8 ∧ fieldN w ∈ [0x8, 0x9, 0xA, 0xB, 0xC, 0xD, 0xF]) ∨
    (fieldG w = 0xE ∧ fieldNN w ∉ [0x9E, 0xA1]) ∨
    (fieldG w = 0xF ∧ fieldNN w ∉ [0x07, 0x0A, 0x15, 0x18, 0x1E, 0x29, 0x33, 0x55, 0x65])

/-- The table of R110 for a word of group 0x0 with low nibble 0x0 or 0xE, under each of the four settings; 00E0 and
00EE, which are general knowledge (log 10), are CLS and RET under every one. -/
def Obligations.ZeroGroupWordsFollowTheTable : Prop :=
  (∀ sel, decodeWith sel 0x00E0 = .instr .cls ∧ decodeWith sel 0x00EE = .instr .ret) ∧
    ∀ w : Word, fieldG w = 0 → w ≠ 0x00E0 → w ≠ 0x00EE →
      (fieldN w = 0x0 →
        decodeWith .refuse w = .refused ∧ decodeWith .lowNibble w = .instr .cls ∧
          decodeWith .lowByte w = (if fieldNN w = 0xE0 then .instr .cls else .unknown) ∧
          decodeWith .exact w = .unknown) ∧
      (fieldN w = 0xE →
        decodeWith .refuse w = .refused ∧ decodeWith .lowNibble w = .instr .ret ∧
          decodeWith .lowByte w = (if fieldNN w = 0xEE then .instr .ret else .unknown) ∧
          decodeWith .exact w = .unknown) ∧
      (fieldN w ≠ 0x0 → fieldN w ≠ 0xE → ∀ sel, decodeWith sel w = .unknown)

/-- Words that the spec's examples and test vectors name, and the word F365 beside them, decode to the instructions they
stand for: one or more of each family. The places of x, y and NN in them and the words 00E0 and 00EE are general
knowledge (log 10). -/
def Obligations.WordsOfTheSpecsExamplesDecode : Prop :=
  decode 0x00E0 = .instr .cls ∧ decode 0xD125 = .instr (.drw 1 2 5) ∧ decode 0x00EE = .instr .ret ∧
    decode 0x2300 = .instr (.call 0x300) ∧ decode 0xBF01 = .instr (.jpV0 0xF01) ∧
    decode 0x3342 = .instr (.seImm 3 0x42) ∧ decode 0x5125 = .instr (.seReg 1 2) ∧
    decode 0x7202 = .instr (.addImm 2 0x02) ∧ decode 0x81F4 = .instr (.addReg 1 0xF) ∧
    decode 0x8016 = .instr (.shr 0) ∧ decode 0xC00F = .instr (.rnd 0 0x0F) ∧ decode 0xA2F0 = .instr (.ldI 0x2F0) ∧
    decode 0xF533 = .instr (.ldBVx 5) ∧ decode 0xF365 = .instr (.ldVxMem 3) ∧ decode 0xE1A1 = .instr (.sknp 1) ∧
    decode 0xF20A = .instr (.ldVxK 2) ∧ decode 0x8008 = .unknown ∧ decode 0x0123 = .unknown

/-! ## Register and arithmetic instructions -/

/-- LD Vx, NN and ADD Vx, NN complete in every state: the register's new value, and nothing else changes; ADD writes
no flag, and with x = 0xF VF receives the sum like any register (R212, R213). -/
def Obligations.ImmediateLoadAndAddWriteOnlyVx : Prop :=
  ∀ (x : Reg) (nn : Byte) (s : State),
    (∃ t, exec (.ldImm x nn) s = .next t ∧ WritesOnly s t x nn) ∧
    (∃ t, exec (.addImm x nn) s = .next t ∧ (t.getV x).toNat = ((s.getV x).toNat + nn.toNat) % 256 ∧
      WritesOnly s t x (t.getV x))

/-- LD Vx, Vy, OR, AND and XOR complete in every state: every bit of the register's new value, and nothing else
changes, VF included unless it is the destination (R214 to R217). -/
def Obligations.CopyAndLogicWriteOnlyVx : Prop :=
  ∀ (x y : Reg) (s : State),
    (∃ t, exec (.ldReg x y) s = .next t ∧ WritesOnly s t x (s.getV y)) ∧
    (∃ t, exec (.or x y) s = .next t ∧ WritesOnly s t x (t.getV x) ∧
      ∀ b < 8, (t.getV x).getLsbD b = ((s.getV x).getLsbD b || (s.getV y).getLsbD b)) ∧
    (∃ t, exec (.and x y) s = .next t ∧ WritesOnly s t x (t.getV x) ∧
      ∀ b < 8, (t.getV x).getLsbD b = ((s.getV x).getLsbD b && (s.getV y).getLsbD b)) ∧
    (∃ t, exec (.xor x y) s = .next t ∧ WritesOnly s t x (t.getV x) ∧
      ∀ b < 8, (t.getV x).getLsbD b = ((s.getV x).getLsbD b != (s.getV y).getLsbD b))

/-- ADD Vx, Vy completes in every state, for all registers, VF included: the wrapped sum, the carry, in the order
VF_WRITE_ORDER (log 1), and nothing else changes. -/
def Obligations.AddWithCarryWritesSumAndCarry : Prop :=
  ∀ (x y : Reg) (s : State), ∃ t, exec (.addReg x y) s = .next t ∧
    FlaggedBy Config.vfWriteOrder s t x y (fun a b => a + b > 255) (fun a b => (a + b) % 256)

/-- SUB and SUBN complete in every state, for all registers: the wrapped difference, and VF = 1 when there is no
borrow, in the order VF_WRITE_ORDER (log 1), and nothing else changes. -/
def Obligations.SubtractionsWriteDifferenceAndNotBorrow : Prop :=
  ∀ (x y : Reg) (s : State),
    (∃ t, exec (.sub x y) s = .next t ∧
      FlaggedBy Config.vfWriteOrder s t x y (fun a b => a ≥ b) (fun a b => (a + 256 - b) % 256)) ∧
    (∃ t, exec (.subn x y) s = .next t ∧
      FlaggedBy Config.vfWriteOrder s t x y (fun a b => b ≥ a) (fun a b => (b + 256 - a) % 256))

/-- SHR and SHL complete in every state, for all registers: half, or the double wrapped, and VF = the bit shifted out,
in the order VF_WRITE_ORDER (log 1), and nothing else changes. -/
def Obligations.ShiftsWriteTheBitShiftedOut : Prop :=
  ∀ (x : Reg) (s : State),
    (∃ t, exec (.shr x) s = .next t ∧
      FlaggedBy Config.vfWriteOrder s t x x (fun a _ => a % 2 = 1) (fun a _ => a / 2)) ∧
    (∃ t, exec (.shl x) s = .next t ∧
      FlaggedBy Config.vfWriteOrder s t x x (fun a _ => a ≥ 128) (fun a _ => a * 2 % 256))

/-- The source's flag properties, of a whole tick and under either VF_WRITE_ORDER: with neither register VF, the tick
of a word 8XY4, 8XY5, 8XY6, 8XY7 or 8XYE leaves in V[x] and VF the values that the original operands give, leaves every
other register alone and advances PC by 2; for the shifts y is ignored and may be any register (the places of x and y
are general knowledge, log 10). -/
def Obligations.TickOfAFlagInstructionUsesTheOriginalOperands : Prop :=
  ∀ (s : State) (x y : Reg) (key : Nat), x ≠ vF → (y ≠ vF ∨ key ∈ [0x6, 0xE]) → key ∈ [0x4, 0x5, 0x6, 0x7, 0xE] →
    Fetches s (BitVec.ofNat 16 (0x8000 + x.val * 256 + y.val * 16 + key)) →
    ∃ t, step s = .next t ∧ t.pc = s.pc + 2 ∧ (∀ r, r ≠ x → r ≠ vF → t.getV r = s.getV r) ∧
      (key = 0x4 → (t.getV x).toNat = ((s.getV x).toNat + (s.getV y).toNat) % 256 ∧
        IsBool (t.getV vF) ((s.getV x).toNat + (s.getV y).toNat > 255)) ∧
      (key = 0x5 → (t.getV x).toNat = ((s.getV x).toNat + 256 - (s.getV y).toNat) % 256 ∧
        IsBool (t.getV vF) ((s.getV x).toNat ≥ (s.getV y).toNat)) ∧
      (key = 0x6 → (t.getV x).toNat = (s.getV x).toNat / 2 ∧ IsBool (t.getV vF) ((s.getV x).toNat % 2 = 1)) ∧
      (key = 0x7 → (t.getV x).toNat = ((s.getV y).toNat + 256 - (s.getV x).toNat) % 256 ∧
        IsBool (t.getV vF) ((s.getV y).toNat ≥ (s.getV x).toNat)) ∧
      (key = 0xE → (t.getV x).toNat = (s.getV x).toNat * 2 % 256 ∧ IsBool (t.getV vF) ((s.getV x).toNat ≥ 128))

/-- RND Vx, NN completes in every state: V[x] is a drawn byte AND NN, so at most NN and 0 outside it; the next draw is
a fresh one, and nothing else changes. The drawn byte is a free value, for every value of the counter (log 3). -/
def Obligations.RandomWritesADrawnByteUnderTheMask : Prop :=
  ∀ (x : Reg) (nn : Byte) (s : State), ∃ t, exec (.rnd x nn) s = .next t ∧
    t.getV x = Config.rand s.draws &&& nn ∧ (t.getV x).toNat ≤ nn.toNat ∧ t.getV x &&& ~~~nn = 0 ∧
    (∀ r, r ≠ x → t.getV r = s.getV r) ∧ t.draws = s.draws + 1 ∧ SameExcept [.v, .draws] s t

/-! ## Display -/

/-- CLS completes in every state: every cell is 0 and REDRAW is set, whatever they held, and nothing else changes, VF
included; the tick of a word that decodes to CLS also advances PC by 2 (R160). -/
def Obligations.ClearScreenZeroesEveryCell : Prop :=
  ∀ s : State,
    (∃ t, exec .cls s = .next t ∧ (∀ k : Fin Config.cells, t.fb[k] = false) ∧ t.redraw = true ∧
      SameExcept [.fb, .redraw] s t) ∧
    ∀ w, Fetches s w → decode w = .instr .cls →
      ∃ t, step s = .next t ∧ (∀ k : Fin Config.cells, t.fb[k] = false) ∧ t.redraw = true ∧ t.pc = s.pc + 2

/-- DRW completes when every byte it reads exists: each cell is XORed with the sprite bit that falls on it by the flat
wraparound, VF is 1 exactly when a 1 bit falls on a set cell, REDRAW is set, and nothing else changes. The coordinates
are read before VF is written (log 16), and the flat wraparound is kept as the source states it (log 25). -/
def Obligations.DrawXorsTheSpriteAndFlagsCollision : Prop :=
  ∀ (x y : Reg) (n : Nat) (s : State), n < 16 → (n = 0 ∨ s.i.toNat + n ≤ 0x1000) →
    ∃ t, exec (.drw x y n) s = .next t ∧
      (∀ k : Fin Config.cells, t.fb[k] = true ↔
        ¬ (s.fb[k] = true ↔ ∃ r < n, ∃ c < 8, FallsOn s x y r c k ∧ SpriteBit s r c)) ∧
      IsBool (t.getV vF)
        (∃ r < n, ∃ c < 8, ∃ k : Fin Config.cells, FallsOn s x y r c k ∧ SpriteBit s r c ∧ s.fb[k] = true) ∧
      t.redraw = true ∧ (∀ r, r ≠ vF → t.getV r = s.getV r) ∧ SameExcept [.v, .fb, .redraw] s t

/-- Drawing the same sprite twice at the same place, with coordinates that are not in VF, gives back every cell (a
consequence of the XOR and of R162's "no cell is touched twice in one draw", which the spec derives). -/
def Obligations.DrawingTwiceRestoresTheDisplay : Prop :=
  ∀ (x y : Reg) (n : Nat) (s : State), x ≠ vF → y ≠ vF → n < 16 → (n = 0 ∨ s.i.toNat + n ≤ 0x1000) →
    ∃ t u, exec (.drw x y n) s = .next t ∧ exec (.drw x y n) t = .next u ∧
      ∀ k : Fin Config.cells, u.fb[k] = s.fb[k]

/-! ## Control flow -/

/-- JP and JP V0 complete in every state: PC is NNN, or the exact sum NNN + V0, JUMP is set, and nothing else changes
(R181, R187; that the sum is not reduced modulo 4096 is log 19). -/
def Obligations.JumpsSetPcToTheirTarget : Prop :=
  ∀ (nnn : Word) (s : State),
    (∃ t, exec (.jp nnn) s = .next t ∧ t.pc = nnn ∧ t.jump = true ∧ SameExcept [.pc, .jump] s t) ∧
    (fitsAddr nnn = true → ∃ t, exec (.jpV0 nnn) s = .next t ∧ t.pc.toNat = nnn.toNat + (s.getV 0).toNat ∧
      t.jump = true ∧ SameExcept [.pc, .jump] s t)

/-- CALL completes while fewer than 16 entries are in use: the return address PC + 2 goes to the slot SP names (log
11), SP counts it, PC is NNN; RET completes while an entry is in use: PC is the popped address and its slot is zeroed.
Every other slot, and everything else, is unchanged. -/
def Obligations.CallPushesAndReturnPops : Prop :=
  ∀ (nnn : Word) (s : State),
    (∀ h : s.sp.val < 16, ∃ t, exec (.call nnn) s = .next t ∧ t.stack[s.sp.val] = s.pc + 2 ∧
      (∀ k : Fin 16, k.val ≠ s.sp.val → t.stack[k] = s.stack[k]) ∧ t.sp.val = s.sp.val + 1 ∧ t.pc = nnn ∧
      t.jump = true ∧ SameExcept [.stack, .sp, .pc, .jump] s t) ∧
    (∀ k : Fin 16, s.sp.val = k.val + 1 → ∃ t, exec .ret s = .next t ∧ t.pc = s.stack[k] ∧ t.stack[k] = 0 ∧
      (∀ j : Fin 16, j ≠ k → t.stack[j] = s.stack[j]) ∧ t.sp.val = k.val ∧ t.jump = true ∧
      SameExcept [.stack, .sp, .pc, .jump] s t)

/-- Executing CALL and then RET gives back SP and the other slots, and sets PC to the address after the call, with the
slot zeroed (the pushed value is the spec's choice, log 11). -/
def Obligations.ReturnAfterCallResumesAfterTheCall : Prop :=
  ∀ (nnn : Word) (s : State), s.sp.val < 16 → ∃ t u, exec (.call nnn) s = .next t ∧ exec .ret t = .next u ∧
    u.pc = s.pc + 2 ∧ u.sp = s.sp ∧
    (∀ k : Fin 16, u.stack[k] = if k.val = s.sp.val then 0 else s.stack[k]) ∧
    SameExcept [.pc, .jump, .stack] s u

/-- CALL with 16 entries in use and RET with none record StackOverflow or StackUnderflow in HALT, with PC and the
opcode word, and change nothing else (the spec's choice, log 12). -/
def Obligations.StackViolationsHaltWithoutOtherChange : Prop :=
  ∀ (nnn : Word) (s : State),
    (s.sp.val = 16 → exec (.call nnn) s = .next { s with halt := some ⟨.stackOverflow, s.pc, s.op⟩ }) ∧
    (s.sp.val = 0 → exec .ret s = .next { s with halt := some ⟨.stackUnderflow, s.pc, s.op⟩ })

/-- The four skips on registers and immediates complete in every state: PC gains 2 exactly when the condition holds,
and nothing else changes, JUMP included (R183 to R186). -/
def Obligations.RegisterSkipsAddTwoWhenTheirConditionHolds : Prop :=
  ∀ (x y : Reg) (nn : Byte) (s : State),
    (∃ t, exec (.seImm x nn) s = .next t ∧ t.pc = (if (s.getV x).toNat = nn.toNat then s.pc + 2 else s.pc) ∧
      SameExcept [.pc] s t) ∧
    (∃ t, exec (.sneImm x nn) s = .next t ∧ t.pc = (if (s.getV x).toNat = nn.toNat then s.pc else s.pc + 2) ∧
      SameExcept [.pc] s t) ∧
    (∃ t, exec (.seReg x y) s = .next t ∧
      t.pc = (if (s.getV x).toNat = (s.getV y).toNat then s.pc + 2 else s.pc) ∧ SameExcept [.pc] s t) ∧
    (∃ t, exec (.sneReg x y) s = .next t ∧
      t.pc = (if (s.getV x).toNat = (s.getV y).toNat then s.pc else s.pc + 2) ∧ SameExcept [.pc] s t)

/-- SKP and SKNP complete when V[x] names a key: PC gains 2 when the live state of that key is pressed, or not
pressed, and nothing else changes. With V[x] above 0xF they record KeyIndexOutOfRange in HALT, with PC, the opcode word
and V[x], and change nothing else (the spec's choice, log 9). -/
def Obligations.KeySkipsReadTheLiveKeyState : Prop :=
  ∀ (x : Reg) (s : State),
    (∀ k : Key, (s.getV x).toNat = k.val →
      (∃ t, exec (.skp x) s = .next t ∧ t.pc = (if s.key[k] then s.pc + 2 else s.pc) ∧ SameExcept [.pc] s t) ∧
      (∃ t, exec (.sknp x) s = .next t ∧ t.pc = (if s.key[k] then s.pc else s.pc + 2) ∧ SameExcept [.pc] s t)) ∧
    ((s.getV x).toNat > 0xF →
      exec (.skp x) s = .next { s with halt := some ⟨.keyIndexOutOfRange (s.getV x), s.pc, s.op⟩ } ∧
      exec (.sknp x) s = .next { s with halt := some ⟨.keyIndexOutOfRange (s.getV x), s.pc, s.op⟩ })

/-- A tick that fetches a skip word advances PC by 4 when the condition holds and by 2 when it does not, for all six
skips and whatever the ignored nibble of 5XY_ and 9XY_ is (the places of x, y and NN are general knowledge, log 10). -/
def Obligations.TickOfASkipAdvancesByFourOrTwo : Prop :=
  ∀ (s : State) (x y : Reg) (nn : Byte) (n : Fin 16) (w : Word), Fetches s w →
    (w.toNat = 0x3000 + x.val * 256 + nn.toNat →
      ∃ t, step s = .next t ∧ t.pc = s.pc + (if s.getV x = nn then 4 else 2)) ∧
    (w.toNat = 0x4000 + x.val * 256 + nn.toNat →
      ∃ t, step s = .next t ∧ t.pc = s.pc + (if s.getV x = nn then 2 else 4)) ∧
    (w.toNat = 0x5000 + x.val * 256 + y.val * 16 + n.val →
      ∃ t, step s = .next t ∧ t.pc = s.pc + (if s.getV x = s.getV y then 4 else 2)) ∧
    (w.toNat = 0x9000 + x.val * 256 + y.val * 16 + n.val →
      ∃ t, step s = .next t ∧ t.pc = s.pc + (if s.getV x = s.getV y then 2 else 4)) ∧
    (∀ k : Key, (s.getV x).toNat = k.val → w.toNat = 0xE09E + x.val * 256 →
      ∃ t, step s = .next t ∧ t.pc = s.pc + (if s.key[k] then 4 else 2)) ∧
    (∀ k : Key, (s.getV x).toNat = k.val → w.toNat = 0xE0A1 + x.val * 256 →
      ∃ t, step s = .next t ∧ t.pc = s.pc + (if s.key[k] then 2 else 4))

/-! ## Index and memory -/

/-- LD I, NNN and LD F, Vx complete in every state: I is NNN, or the exact product V[x] * 5, not reduced to a digit,
and nothing else changes (R250, R252). -/
def Obligations.IndexLoadsWriteOnlyI : Prop :=
  ∀ (nnn : Word) (x : Reg) (s : State),
    (∃ t, exec (.ldI nnn) s = .next t ∧ t.i = nnn ∧ SameExcept [.i] s t) ∧
    (∃ t, exec (.ldFVx x) s = .next t ∧ t.i.toNat = (s.getV x).toNat * 5 ∧ SameExcept [.i] s t)

/-- ADD I, Vx, for all registers and in the order VF_WRITE_ORDER (log 1): when the sum fits 16 bits, as it does from
every I up to 0xFF00, it completes with the unreduced sum in I and VF telling that I + V[x] passes 0xFFF, and nothing
else changes; when it does not fit, HALT records IndexOverflow with the sum, and nothing else changes. That the flag is
an exact-integer comparison, also for I above 0xFFF, is the spec's reading (log 22), and the width of I is its choice
(log 8). -/
def Obligations.AddToIndexIsNotMasked : Prop :=
  ∀ (x : Reg) (s : State), ∃ a : Nat, IndexAddend Config.vfWriteOrder s x a ∧
    (s.i.toNat ≤ 0xFF00 → s.i.toNat + a ≤ 0xFFFF) ∧
    (s.i.toNat + a ≤ 0xFFFF →
      ∃ t, exec (.addIVx x) s = .next t ∧ t.i.toNat = s.i.toNat + a ∧
        IsBool (t.getV vF) (s.i.toNat + (s.getV x).toNat > 0xFFF) ∧ (∀ r, r ≠ vF → t.getV r = s.getV r) ∧
        SameExcept [.v, .i] s t) ∧
    (s.i.toNat + a > 0xFFFF →
      exec (.addIVx x) s = .next { s with halt := some ⟨.indexOverflow (s.i.toNat + a), s.pc, s.op⟩ })

/-- LD B, Vx completes when I, I+1 and I+2 exist: they receive the three decimal digits of V[x], most significant
first, every other byte and everything else is unchanged, I included. -/
def Obligations.BcdStoresThreeDecimalDigits : Prop :=
  ∀ (x : Reg) (s : State), s.mem.wf = true → s.i.toNat + 3 ≤ 0x1000 →
    ∃ t, exec (.ldBVx x) s = .next t ∧
      (∃ h z o : Nat, h < 10 ∧ z < 10 ∧ o < 10 ∧ (s.getV x).toNat = h * 100 + z * 10 + o ∧
        (t.mem.read (s.dataAddr 0)).toNat = h ∧ (t.mem.read (s.dataAddr 1)).toNat = z ∧
        (t.mem.read (s.dataAddr 2)).toNat = o) ∧
      SameMemoryOutside s t (s.dataAddr 0) 3 ∧ SameExcept [.mem] s t

/-- LD [I], Vx completes when I to I + x exist: they receive V0 to Vx, I becomes I + x + 1, every other byte and
everything else is unchanged. -/
def Obligations.RegisterDumpStoresV0ToVx : Prop :=
  ∀ (x : Reg) (s : State), s.mem.wf = true → s.i.toNat + x.val + 1 ≤ 0x1000 →
    ∃ t, exec (.ldMemVx x) s = .next t ∧ (∀ z : Reg, z ≤ x → t.mem.read (s.dataAddr z.val) = s.getV z) ∧
      SameMemoryOutside s t (s.dataAddr 0) (x.val + 1) ∧ t.i.toNat = s.i.toNat + x.val + 1 ∧
      SameExcept [.mem, .i] s t

/-- LD Vx, [I] completes when I to I + x exist: V0 to Vx receive them, I becomes I + x + 1, the registers above Vx, all
of memory and everything else is unchanged. -/
def Obligations.RegisterLoadReadsV0ToVx : Prop :=
  ∀ (x : Reg) (s : State), s.i.toNat + x.val + 1 ≤ 0x1000 →
    ∃ t, exec (.ldVxMem x) s = .next t ∧
      (∀ z : Reg, t.getV z = if z ≤ x then s.mem.read (s.dataAddr z.val) else s.getV z) ∧
      t.i.toNat = s.i.toNat + x.val + 1 ∧ SameExcept [.v, .i] s t

/-- Storing V0 to Vx and loading them back, from the same I and into any register file, gives the stored values, and
both instructions advance I by x + 1. -/
def Obligations.RegisterLoadUndoesRegisterDump : Prop :=
  ∀ (x : Reg) (s : State) (v' : Vector Byte 16), s.mem.wf = true → s.i.toNat + x.val + 1 ≤ 0x1000 →
    ∃ t u, exec (.ldMemVx x) s = .next t ∧ exec (.ldVxMem x) { t with v := v', i := s.i } = .next u ∧
      (∀ z : Reg, z ≤ x → u.getV z = s.getV z) ∧ t.i.toNat = s.i.toNat + x.val + 1 ∧ u.i = t.i

/-- DRW with N > 0, LD B, LD [I] and LD Vx, [I] that would touch an address of 0x1000 or above record MemOutOfRange in
HALT, with the lowest such address, PC and the opcode word, and change nothing else (the spec's choices, log 13). -/
def Obligations.AccessBeyondMemoryHaltsWithoutOtherChange : Prop :=
  ∀ (x y : Reg) (n : Nat) (s : State),
    (0 < n → s.i.toNat + n > 0x1000 → exec (.drw x y n) s =
      .next { s with halt := some ⟨.memOutOfRange (max s.i.toNat 0x1000), s.pc, s.op⟩ }) ∧
    (s.i.toNat + 3 > 0x1000 → exec (.ldBVx x) s =
      .next { s with halt := some ⟨.memOutOfRange (max s.i.toNat 0x1000), s.pc, s.op⟩ }) ∧
    (s.i.toNat + x.val + 1 > 0x1000 →
      exec (.ldMemVx x) s = .next { s with halt := some ⟨.memOutOfRange (max s.i.toNat 0x1000), s.pc, s.op⟩ } ∧
      exec (.ldVxMem x) s = .next { s with halt := some ⟨.memOutOfRange (max s.i.toNat 0x1000), s.pc, s.op⟩ })

/-- Bytes that LD [I], Vx or LD B, Vx has stored are the ones that every later fetch reads there, as the first or as the
second byte of its word: no flush is needed (the spec derives this from the fetch rule and the order of accesses). -/
def Obligations.StoredBytesAreFetchedAsCode : Prop :=
  ∀ (x : Reg) (s : State), s.mem.wf = true →
    (s.i.toNat + x.val + 1 ≤ 0x1000 → ∃ t, exec (.ldMemVx x) s = .next t ∧
      ∀ z : Reg, z ≤ x → FetchedAt t (s.dataAddr z.val) (s.getV z).toNat) ∧
    (s.i.toNat + 3 ≤ 0x1000 → ∃ t, exec (.ldBVx x) s = .next t ∧
      ∀ k < 3, FetchedAt t (s.dataAddr k) ((s.getV x).toNat / 10 ^ (2 - k) % 10))

/-! ## Keys and timers -/

/-- LD Vx, DT, LD DT, Vx and LD ST, Vx complete in every state: the value moved, and nothing else changes (R282, R284,
R285). -/
def Obligations.TimerMovesWriteOnlyTheirDestination : Prop :=
  ∀ (x : Reg) (s : State),
    (∃ t, exec (.ldVxDt x) s = .next t ∧ WritesOnly s t x s.dt) ∧
    (∃ t, exec (.ldDtVx x) s = .next t ∧ t.dt = s.getV x ∧ SameExcept [.dt] s t) ∧
    (∃ t, exec (.ldStVx x) s = .next t ∧ t.st = s.getV x ∧ SameExcept [.st] s t)

/-- LD Vx, K completes when a press is latched: V[x] is the latched key and the press is consumed; with none latched it
waits, which marks AWAIT and JUMP and changes nothing else ("latched" is KFLAG = 1 by the spec's choice, log 17). -/
def Obligations.WaitForKeyTakesALatchedPress : Prop :=
  ∀ (x : Reg) (s : State),
    (s.kflag = true → ∃ t, exec (.ldVxK x) s = .next t ∧ (t.getV x).toNat = s.klatch.val ∧ t.kflag = false ∧
      (∀ r, r ≠ x → t.getV r = s.getV r) ∧ SameExcept [.v, .kflag] s t) ∧
    (s.kflag = false → ∃ t, exec (.ldVxK x) s = .next t ∧ t.await = true ∧ t.jump = true ∧
      SameExcept [.await, .jump] s t)

/-- A timer written by FX15 or FX18 is decremented in the same tick: n is left as n - 1, and 0 as 0, and writing 1 to
ST gives the edge in that very tick (the spec derives this; the place of x is general knowledge, log 10). -/
def Obligations.WrittenTimerIsDecrementedInTheSameTick : Prop :=
  ∀ (s : State) (x : Reg) (w : Word), Fetches s w →
    (w.toNat = 0xF015 + x.val * 256 → ∃ t, step s = .next t ∧ t.dt.toNat = (s.getV x).toNat - 1) ∧
    (w.toNat = 0xF018 + x.val * 256 → ∃ t, step s = .next t ∧ t.st.toNat = (s.getV x).toNat - 1 ∧
      (.soundStop ∈ t.events ↔ (s.getV x).toNat = 1))

/-! ## The tick -/

/-- When the word at PC decodes to an instruction, the tick is that instruction's execution on the state after step 1;
then, unless it recorded a fatal condition, PC advances by 2 if JUMP is clear, both timers count down with SoundStop on
the edge, and KFLAG is cleared; the opcode register is empty afterwards (log 7). -/
def Obligations.StepRunsTheDecodedInstruction : Prop :=
  ∀ (s u : State) (w : Word) (i : Instr), s.running = true → s.fetch = some w → decode w = .instr i →
    exec i { s with jump := false, redraw := false, await := false, events := [], op := some w } = .next u →
    step s = .next
      (if u.halt.isSome then { u with op := none }
      else { u with
        pc := if u.jump then u.pc else u.pc + 2
        dt := if u.dt = 0 then 0 else u.dt - 1
        st := if u.st = 0 then 0 else u.st - 1
        events := if u.st = 1 then u.events ++ [.soundStop] else u.events
        kflag := false
        op := none })

/-- Step 4: PC advances by 2 exactly when JUMP is clear after the instruction, and the instructions that set JUMP are
RET, JP, CALL, JP_V0 and LD_VX_K while it waits, the first and third when the stack allows them (R144). -/
def Obligations.PcAdvancesByTwoUnlessJumpIsSet : Prop :=
  ∀ (s u : State) (w : Word) (i : Instr), Fetches s w → decode w = .instr i → exec i (atExec s w) = .next u →
    u.halt = none →
    (∃ t, step s = .next t ∧ t.pc = if u.jump then u.pc else u.pc + 2) ∧
    (u.jump = true ↔ i = .ret ∨ (∃ nnn, i = .jp nnn ∨ i = .call nnn ∨ i = .jpV0 nnn) ∨
      ((∃ x, i = .ldVxK x) ∧ s.kflag = false))

/-- Step 5: a tick that gets past step 3 without a fatal condition or a refusal leaves DT one lower, or 0: after an
instruction, and after an unknown word (R145). -/
def Obligations.EveryCompletedTickCountsDelayDown : Prop :=
  ∀ (s : State) (w : Word), Fetches s w →
    (∀ (i : Instr) (u : State), decode w = .instr i → exec i (atExec s w) = .next u → u.halt = none →
      ∃ t, step s = .next t ∧ t.dt.toNat = u.dt.toNat - 1) ∧
    (decode w = .unknown → ∃ t, step s = .next t ∧ t.dt.toNat = s.dt.toNat - 1)

/-- Step 6: such a tick leaves ST one lower, or 0, and emits SoundStop exactly when this takes ST from 1 to 0; it never
raises ST (R146). -/
def Obligations.EveryCompletedTickCountsSoundDown : Prop :=
  ∀ (s : State) (w : Word), Fetches s w →
    (∀ (i : Instr) (u : State), decode w = .instr i → exec i (atExec s w) = .next u → u.halt = none →
      ∃ t, step s = .next t ∧ t.st.toNat = u.st.toNat - 1 ∧ (.soundStop ∈ t.events ↔ u.st.toNat = 1)) ∧
    (decode w = .unknown →
      ∃ t, step s = .next t ∧ t.st.toNat = s.st.toNat - 1 ∧ (.soundStop ∈ t.events ↔ s.st.toNat = 1))

/-- Step 7: a tick that completes leaves KFLAG clear and KLATCH as it is, whatever ran (R147). -/
def Obligations.CompletedTickClearsKeyFlagAndKeepsLatch : Prop :=
  ∀ s t : State, s.running = true → step s = .next t → t.halt = none → t.refused = none →
    t.kflag = false ∧ t.klatch = s.klatch

/-- The tick of a word that is no instruction: a diagnostic with PC and the word, PC + 2, the timers count down, KFLAG
clears, and nothing else changes but what step 1 clears (R148; the event list is log 6). -/
def Obligations.UnknownWordIsReportedAndSkipped : Prop :=
  ∀ (s : State) (w : Word), Fetches s w → decode w = .unknown →
    ∃ t, step s = .next t ∧ t.pc = s.pc + 2 ∧ t.dt.toNat = s.dt.toNat - 1 ∧ t.st.toNat = s.st.toNat - 1 ∧
      t.events = .unknownOpcode s.pc w :: (if s.st.toNat = 1 then [.soundStop] else []) ∧ t.kflag = false ∧
      t.jump = false ∧ t.redraw = false ∧ t.await = false ∧ t.op = none ∧
      SameExcept [.pc, .dt, .st, .events, .kflag, .jump, .redraw, .await, .op] s t

/-- A fetch with PC above 0xFFE records FetchOutOfRange in HALT, with PC and no word, and the tick ends with only step
1's clears done (the spec's choices, log 14). -/
def Obligations.FetchBeyondMemoryHalts : Prop :=
  ∀ s : State, s.running = true → s.pc.toNat > 0xFFE →
    step s = .next { s with jump := false, redraw := false, await := false, events := [], op := none
                            halt := some ⟨.fetchOutOfRange, s.pc, none⟩ }

/-- A tick whose instruction raises a fatal condition stops there: HALT holds the condition that the instruction
raised, PC and the fetched word, step 1's clears stand, and nothing else changes: the timers do not count and KFLAG
stays (the spec's choice, log 12). -/
def Obligations.FatalConditionEndsTheTick : Prop :=
  ∀ (s u : State) (w : Word) (i : Instr), Fetches s w → decode w = .instr i → exec i (atExec s w) = .next u →
    u.halt ≠ none →
    ∃ c : Fatal, u.halt = some ⟨c, s.pc, some w⟩ ∧
      step s = .next { s with jump := false, redraw := false, await := false, events := [], op := none
                              halt := u.halt }

/-- While HALT or REFUSED is set, a tick changes nothing and emits nothing, however often it is called (the spec's
choice, log 12 and log 5). -/
def Obligations.StoppedBlockStaysAsItIs : Prop :=
  ∀ (s : State) (n : Nat), s.halt ≠ none ∨ s.refused ≠ none →
    Host.Core.run core (n + 1) s = .next { s with events := [] }

/-- The tick of an open word of group 0x0, under whichever setting ZERO_GROUP_SELECT has: under Refuse it records PC
and the word in REFUSED and stops before step 4; under the others it is the tick of CLS, of RET, or of an unknown word,
whose diagnostic and steps 4 to 7 the state after step 1 gets (log 4). -/
def Obligations.OpenZeroGroupWordFollowsTheSetting : Prop :=
  ∀ (s : State) (w : Word), Fetches s w → fieldG w = 0 → (fieldN w = 0x0 ∨ fieldN w = 0xE) → w ≠ 0x00E0 →
    w ≠ 0x00EE →
    match Config.zeroGroupSelect with
    | .refuse => step s = .next { s with jump := false, redraw := false, await := false, events := [], op := none
                                         refused := some ⟨s.pc, w⟩ }
    | .lowNibble => ∃ u, exec (if fieldN w = 0x0 then .cls else .ret) (atExec s w) = .next u ∧
        step s = .next u.afterExec
    | .lowByte =>
      if fieldNN w = 0xE0 ∨ fieldNN w = 0xEE then
        ∃ u, exec (if fieldNN w = 0xE0 then .cls else .ret) (atExec s w) = .next u ∧ step s = .next u.afterExec
      else step s = .next (s.beginTick.unknownWord w)
    | .exact => step s = .next (s.beginTick.unknownWord w)

/-! ## The invariant -/

/-- Every tick keeps the invariant of the states between ticks: canonical memory, PC at most 0x10FE and return
addresses at most 0x1000, unused stack slots zero, an empty opcode register, AWAIT only with JUMP, never both HALT and
REFUSED, and records that name the present PC. -/
def Obligations.EveryTickKeepsTheInvariant : Prop :=
  ∀ s t : State, s.Inv → step s = .next t → t.Inv

/-- The invariant holds after reset. -/
def Obligations.ResetMeetsTheInvariant : Prop := State.Inv State.reset

/-- Every action of the host between ticks keeps the invariant too: reset, load of any image, press, release and read.
And every action, the tick included, keeps a session in which the host may load at the reset state but for key events,
so that what it loads onto is never an old program (which loads the host may make is log 26). -/
def Obligations.EveryHostActionKeepsTheInvariant : Prop :=
  ∀ (h : HostSession) (a : HostAction) (r : HostAnswer), hostStep a h = some (.next r) →
    (h.state.Inv → a ≠ .tick → r.session.state.Inv) ∧ (h.LoadsOntoReset → r.session.LoadsOntoReset)

/-! ## Rules about all instructions -/

/-- No instruction changes a register other than those the table of register accesses says it writes: in particular VF
only changes as a flag or as an ordinary destination (the table is derived by the spec). -/
def Obligations.OnlyTheTabledRegistersAreWritten : Prop :=
  ∀ (i : Instr) (s t : State) (r : Reg), exec i s = .next t → ¬ WritesReg i r → t.getV r = s.getV r

/-- An instruction depends only on the registers that the table says it reads: two states that differ in other
registers alone give the same next state, but for those registers, and the same written values unless the instruction
left the register alone. -/
def Obligations.OnlyTheTabledRegistersAreRead : Prop :=
  ∀ (i : Instr) (s s' t t' : State), s' = { s with v := s'.v } → (∀ r, ReadsReg i r → s'.getV r = s.getV r) →
    exec i s = .next t → exec i s' = .next t' →
    t' = { t with v := t'.v } ∧
      ∀ r, WritesReg i r → t'.getV r = t.getV r ∨ (t.getV r = s.getV r ∧ t'.getV r = s'.getV r)

/-- I changes only by LD_I, ADD_I_VX, LD_F_VX, LD_MEM_VX and LD_VX_MEM (R36). -/
def Obligations.IndexChangesOnlyByItsInstructions : Prop :=
  ∀ (i : Instr) (s t : State), exec i s = .next t → t.i ≠ s.i →
    (∃ nnn, i = .ldI nnn) ∨ ∃ x, i = .addIVx x ∨ i = .ldFVx x ∨ i = .ldMemVx x ∨ i = .ldVxMem x

/-- The framebuffer and REDRAW change only by CLS and DRW; and when a tick leaves REDRAW set, one of the two was the
instruction of that tick. -/
def Obligations.DisplayChangesOnlyByClearAndDraw : Prop :=
  (∀ (i : Instr) (s t : State), exec i s = .next t → (t.fb ≠ s.fb ∨ t.redraw ≠ s.redraw) →
    i = .cls ∨ ∃ x y n, i = .drw x y n) ∧
  (∀ s t : State, s.running = true → step s = .next t → t.redraw = true →
    ∃ w, s.fetch = some w ∧ (decode w = .instr .cls ∨ ∃ x y n, decode w = .instr (.drw x y n)))

/-- The return stack and SP change only by CALL and RET, by one entry at a time (R41). -/
def Obligations.StackChangesOnlyByCallAndReturn : Prop :=
  ∀ (i : Instr) (s t : State), exec i s = .next t → (t.stack ≠ s.stack ∨ t.sp ≠ s.sp) →
    ((∃ nnn, i = .call nnn) ∧ t.sp.val = s.sp.val + 1) ∨ (i = .ret ∧ t.sp.val + 1 = s.sp.val)

/-- No instruction but LD_DT_VX changes DT, and none but LD_ST_VX changes ST: otherwise the timers only count. -/
def Obligations.TimersChangeOnlyByTheirInstructions : Prop :=
  ∀ (i : Instr) (s t : State), exec i s = .next t →
    (t.dt ≠ s.dt → ∃ x, i = .ldDtVx x) ∧ (t.st ≠ s.st → ∃ x, i = .ldStVx x)

/-- Memory changes only by LD_B_VX and LD_MEM_VX, and only at the bytes they store to, which exist: the three bytes
from I, or the x + 1 bytes from I. -/
def Obligations.MemoryChangesOnlyByTheTwoStores : Prop :=
  ∀ (i : Instr) (s t : State) (a : Nat), s.mem.wf = true → exec i s = .next t → t.mem.read a ≠ s.mem.read a →
    a < 0x1000 ∧ s.dataAddr 0 ≤ a ∧
      ((∃ x, i = .ldBVx x ∧ a < s.dataAddr 3) ∨ ∃ x : Reg, i = .ldMemVx x ∧ a < s.dataAddr (x.val + 1))

/-- No tick changes KEY or KLATCH, and KFLAG is never set by one: only the host's key events write them (R48 to R50). -/
def Obligations.OnlyTheHostWritesTheKeys : Prop :=
  ∀ s t : State, step s = .next t → t.key = s.key ∧ t.klatch = s.klatch ∧ (t.kflag = true → s.kflag = true)

/-- A finished program, which stands at a jump to itself, stays finished: after any number of ticks PC, V, I, MEM, SP,
STACK and FB are as they were (the notion is the spec's own choice, log 24). -/
def Obligations.FinishedProgramStaysFinished : Prop :=
  ∀ (n : Nat) (s : State), s.finished → ∃ t, Host.Core.run core n s = .next t ∧ t.finished ∧
    t.pc = s.pc ∧ t.v = s.v ∧ t.i = s.i ∧ t.mem = s.mem ∧ t.sp = s.sp ∧ t.stack = s.stack ∧ t.fb = s.fb

/-! ## The host -/

/-- What reset leaves, from any state: FONT at 0x000 to 0x04F and 0 elsewhere, PC 0x200, every register, slot, cell,
timer and key 0, every flag clear, no HALT and no REFUSED; and a second reset changes nothing. That it clears HALT and
REFUSED, and the model's own fields, are choices (log 12, log 6, log 7); FONT is open (log 2). -/
def Obligations.ResetLeavesTheStatedValues : Prop :=
  ∀ s : State,
    (∀ a : Fin 80, s.hostReset.mem.read a.val = Config.font a) ∧ (∀ a ≥ 80, s.hostReset.mem.read a = 0) ∧
    (∀ r, s.hostReset.getV r = 0) ∧ s.hostReset.i = 0 ∧ s.hostReset.pc = 0x200 ∧
    (∀ k : Fin 16, s.hostReset.stack[k] = 0) ∧ s.hostReset.sp = 0 ∧ s.hostReset.dt = 0 ∧ s.hostReset.st = 0 ∧
    (∀ k : Fin Config.cells, s.hostReset.fb[k] = false) ∧ (∀ k : Key, s.hostReset.key[k] = false) ∧
    s.hostReset.klatch = 0 ∧ s.hostReset.kflag = false ∧ s.hostReset.jump = false ∧ s.hostReset.redraw = false ∧
    s.hostReset.await = false ∧ s.hostReset.halt = none ∧ s.hostReset.refused = none ∧ s.hostReset.op = none ∧
    s.hostReset.events = [] ∧ s.hostReset.hostReset = s.hostReset

/-- `load` accepts exactly the images of up to 3584 bytes and rejects every longer one without any change; an accepted
image stands from 0x200 upward, every other byte and all else is unchanged (R352, R353). -/
def Obligations.LoadCopiesAnImageThatFits : Prop :=
  ∀ (s : State) (image : List Byte), s.mem.wf = true →
    (image.length > 3584 → s.load image = (.tooLarge, s)) ∧
    (image.length ≤ 3584 → ∃ t, s.load image = (.ok, t) ∧
      (∀ k, ∀ h : k < image.length, t.mem.read (0x200 + k) = image[k]) ∧
      SameMemoryOutside s t 0x200 image.length ∧ SameExcept [.mem] s t)

/-- The launch state of a program image that fits: FONT, zeros up to 0x1FF, the image from 0x200 and zeros above it, and
every other element as after reset (FONT is open, log 2). The host reaches it from any session by reset and load, which
answers Ok (the count of random draws goes on, log 3); an image that is too long is answered TooLarge and leaves the
session as it is; and after a load, or a tick, there is no move that loads again without a reset (log 26). -/
def Obligations.LaunchStateHoldsFontAndImage : Prop :=
  ∀ (image : List Byte) (h : HostSession), ∃ k, hostStep .reset h = some (.next ⟨.nothing, k⟩) ∧
    (image.length > 3584 → hostStep (.load image) k = some (.next ⟨.loaded .tooLarge, k⟩)) ∧
    (image.length ≤ 3584 →
      (∃ m, hostStep (.load image) k = some (.next ⟨.loaded .ok, m⟩) ∧
        m.state = { launch image with draws := h.state.draws } ∧ ∀ image', hostStep (.load image') m = none) ∧
      (∀ a : Fin 80, (launch image).mem.read a.val = Config.font a) ∧
      (∀ a, 0x50 ≤ a → a < 0x200 → (launch image).mem.read a = 0) ∧
      (∀ j, ∀ hj : j < image.length, (launch image).mem.read (0x200 + j) = image[j]) ∧
      (∀ a, 0x200 + image.length ≤ a → (launch image).mem.read a = 0) ∧ SameExcept [.mem] State.reset (launch image)) ∧
    ∀ r, hostStep .tick h = some (.next r) → hostStep (.load image) r.session = none

/-- A press sets the key and is latched only if no press is already latched; a release clears the key and touches
neither the latch nor the flag; nothing else changes ("latched" is KFLAG = 1 by the spec's choice, log 17). -/
def Obligations.KeyEventsUpdateTheLatchOnce : Prop :=
  ∀ (s : State) (k : Key),
    (s.press k).key[k] = true ∧ (∀ j : Key, j ≠ k → (s.press k).key[j] = s.key[j]) ∧
    (s.press k).kflag = true ∧ (s.press k).klatch = (if s.kflag then s.klatch else k) ∧
    SameExcept [.key, .klatch, .kflag] s (s.press k) ∧
    (s.release k).key[k] = false ∧ (∀ j : Key, j ≠ k → (s.release k).key[j] = s.key[j]) ∧
    SameExcept [.key] s (s.release k)
end

