-- ==== Sys2Proof/Laws/Decode.lean ====
section
/-! SUPPORT. The fields of an encoded word, and that a decoded instruction is well formed. -/

namespace Sys2Proof

/-! ## Fields of the four formats (R107) -/

theorem field_append (hi : BitVec 4) (a b c : BitVec 4) :
    (hi ++ a ++ b ++ c : BitVec 16).toNat = ((hi.toNat * 16 + a.toNat) * 16 + b.toNat) * 16 + c.toNat := by
  have h1 := a.isLt
  have h2 := b.isLt
  have h3 := c.isLt
  simp only [BitVec.toNat_append]
  rw [← Nat.shiftLeft_add_eq_or_of_lt h3, ← Nat.shiftLeft_add_eq_or_of_lt h2, ← Nat.shiftLeft_add_eq_or_of_lt h1]
  simp only [Nat.shiftLeft_eq]

theorem toNat_encodeFA (g : BitVec 4) (nnn : Word) : (encodeFA g nnn).toNat = g.toNat * 4096 + nnn.toNat % 4096 := by
  have h : (nnn.setWidth 12).toNat < 2 ^ 12 := (nnn.setWidth 12).isLt
  simp only [encodeFA]
  rw [BitVec.toNat_append, ← Nat.shiftLeft_add_eq_or_of_lt h]
  simp [Nat.shiftLeft_eq]

theorem toNat_encodeFI (g : BitVec 4) (x : Reg) (nn : Byte) :
    (encodeFI g x nn).toNat = (g.toNat * 16 + x.val) * 256 + nn.toNat := by
  have h1 : (BitVec.ofFin x : BitVec 4).toNat < 2 ^ 4 := (BitVec.ofFin x : BitVec 4).isLt
  have h2 := nn.isLt
  simp only [encodeFI]
  rw [BitVec.toNat_append, BitVec.toNat_append, ← Nat.shiftLeft_add_eq_or_of_lt h2, ← Nat.shiftLeft_add_eq_or_of_lt h1]
  simp [Nat.shiftLeft_eq]

theorem toNat_encodeFS (g : BitVec 4) (x : Reg) (sub : Byte) :
    (encodeFS g x sub).toNat = (g.toNat * 16 + x.val) * 256 + sub.toNat :=
  toNat_encodeFI g x sub

theorem toNat_encodeFR (g : BitVec 4) (x y : Reg) (n : BitVec 4) :
    (encodeFR g x y n).toNat = ((g.toNat * 16 + x.val) * 16 + y.val) * 16 + n.toNat :=
  field_append g (BitVec.ofFin x) (BitVec.ofFin y) n

/-! ## The fields of any word, as quotients and remainders (R13, R18) -/

theorem fieldG_eq (w : Word) : fieldG w = w.toNat / 4096 := by
  have := w.isLt
  simp [fieldG, Nat.shiftRight_eq_div_pow]
  omega

theorem fieldX_eq (w : Word) : (fieldX w).val = w.toNat / 256 % 16 := by
  simp [fieldX, Nat.shiftRight_eq_div_pow]

theorem fieldY_eq (w : Word) : (fieldY w).val = w.toNat / 16 % 16 := by
  simp [fieldY, Nat.shiftRight_eq_div_pow]

theorem fieldN_eq (w : Word) : fieldN w = w.toNat % 16 := by
  simp [fieldN]

theorem fieldNN_eq (w : Word) : (fieldNN w).toNat = w.toNat % 256 := by
  simp [fieldNN]

theorem fieldNNN_eq (w : Word) : (fieldNNN w).toNat = w.toNat % 4096 := by
  simp [fieldNNN]
  omega

theorem fieldNNN_fits (w : Word) : fitsAddr (fieldNNN w) = true := by
  simp only [fitsAddr, fieldNNN_eq, decide_eq_true_eq]
  omega

theorem fieldN_fits (w : Word) : fitsHeight (fieldN w) = true := by
  simp only [fitsHeight, fieldN_eq, decide_eq_true_eq]
  omega

/-! ## The fields of an encoded word -/

@[simp] theorem fieldG_encodeFA (g : BitVec 4) (nnn : Word) : fieldG (encodeFA g nnn) = g.toNat := by
  rw [fieldG_eq, toNat_encodeFA]; omega

theorem fieldNNN_encodeFA (g : BitVec 4) {nnn : Word} (h : fitsAddr nnn = true) : fieldNNN (encodeFA g nnn) = nnn := by
  simp only [fitsAddr, decide_eq_true_eq] at h
  apply BitVec.eq_of_toNat_eq
  rw [fieldNNN_eq, toNat_encodeFA]; omega

@[simp] theorem fieldG_encodeFI (g : BitVec 4) (x : Reg) (nn : Byte) : fieldG (encodeFI g x nn) = g.toNat := by
  have := nn.isLt
  rw [fieldG_eq, toNat_encodeFI]; omega

@[simp] theorem fieldX_encodeFI (g : BitVec 4) (x : Reg) (nn : Byte) : fieldX (encodeFI g x nn) = x := by
  have := nn.isLt
  apply Fin.ext
  rw [fieldX_eq, toNat_encodeFI]; omega

@[simp] theorem fieldNN_encodeFI (g : BitVec 4) (x : Reg) (nn : Byte) : fieldNN (encodeFI g x nn) = nn := by
  have := nn.isLt
  apply BitVec.eq_of_toNat_eq
  rw [fieldNN_eq, toNat_encodeFI]; omega

@[simp] theorem fieldG_encodeFS (g : BitVec 4) (x : Reg) (sub : Byte) : fieldG (encodeFS g x sub) = g.toNat :=
  fieldG_encodeFI g x sub

@[simp] theorem fieldX_encodeFS (g : BitVec 4) (x : Reg) (sub : Byte) : fieldX (encodeFS g x sub) = x :=
  fieldX_encodeFI g x sub

@[simp] theorem fieldNN_encodeFS (g : BitVec 4) (x : Reg) (sub : Byte) : fieldNN (encodeFS g x sub) = sub :=
  fieldNN_encodeFI g x sub

@[simp] theorem fieldG_encodeFR (g : BitVec 4) (x y : Reg) (n : BitVec 4) : fieldG (encodeFR g x y n) = g.toNat := by
  have := n.isLt
  rw [fieldG_eq, toNat_encodeFR]; omega

@[simp] theorem fieldX_encodeFR (g : BitVec 4) (x y : Reg) (n : BitVec 4) : fieldX (encodeFR g x y n) = x := by
  have := n.isLt
  apply Fin.ext
  rw [fieldX_eq, toNat_encodeFR]; omega

@[simp] theorem fieldY_encodeFR (g : BitVec 4) (x y : Reg) (n : BitVec 4) : fieldY (encodeFR g x y n) = y := by
  have := n.isLt
  apply Fin.ext
  rw [fieldY_eq, toNat_encodeFR]; omega

@[simp] theorem fieldN_encodeFR (g : BitVec 4) (x y : Reg) (n : BitVec 4) : fieldN (encodeFR g x y n) = n.toNat := by
  have := n.isLt
  rw [fieldN_eq, toNat_encodeFR]; omega

/-- The two bytes of a word, put together in memory order, are the word (R77). -/
theorem wordOfBytes_bytes (w : Word) : wordOfBytes (hiByte w) (loByte w) = w := by
  apply BitVec.eq_of_toNat_eq
  have h1 : (loByte w).toNat < 2 ^ 8 := (loByte w).isLt
  have h2 := w.isLt
  rw [wordOfBytes, BitVec.toNat_append, ← Nat.shiftLeft_add_eq_or_of_lt h1]
  simp [hiByte, loByte, Nat.shiftRight_eq_div_pow, Nat.shiftLeft_eq]
  omega

/-- The group selects the branch of the decoder (R101). -/
theorem fieldG_lt (w : Word) : fieldG w < 16 := by
  rw [fieldG_eq]
  have := w.isLt
  omega

/-! ## The decoder, group by group (R101) -/

theorem decode_group0 {w : Word} (h : fieldG w = 0) : decode w = decodeGroup0 Config.zeroGroupSelect w := by
  rw [decode, decodeWith, h]; rfl

theorem decode_group1 {w : Word} (h : fieldG w = 1) : decode w = .instr (.jp (fieldNNN w)) := by
  rw [decode, decodeWith, h]; rfl

theorem decode_group2 {w : Word} (h : fieldG w = 2) : decode w = .instr (.call (fieldNNN w)) := by
  rw [decode, decodeWith, h]; rfl

theorem decode_group3 {w : Word} (h : fieldG w = 3) : decode w = .instr (.seImm (fieldX w) (fieldNN w)) := by
  rw [decode, decodeWith, h]; rfl

theorem decode_group4 {w : Word} (h : fieldG w = 4) : decode w = .instr (.sneImm (fieldX w) (fieldNN w)) := by
  rw [decode, decodeWith, h]; rfl

theorem decode_group5 {w : Word} (h : fieldG w = 5) : decode w = .instr (.seReg (fieldX w) (fieldY w)) := by
  rw [decode, decodeWith, h]; rfl

theorem decode_group6 {w : Word} (h : fieldG w = 6) : decode w = .instr (.ldImm (fieldX w) (fieldNN w)) := by
  rw [decode, decodeWith, h]; rfl

theorem decode_group7 {w : Word} (h : fieldG w = 7) : decode w = .instr (.addImm (fieldX w) (fieldNN w)) := by
  rw [decode, decodeWith, h]; rfl

theorem decode_group8 {w : Word} (h : fieldG w = 8) : decode w = decodeGroup8 w := by
  rw [decode, decodeWith, h]; rfl

theorem decode_group9 {w : Word} (h : fieldG w = 9) : decode w = .instr (.sneReg (fieldX w) (fieldY w)) := by
  rw [decode, decodeWith, h]; rfl

theorem decode_groupA {w : Word} (h : fieldG w = 10) : decode w = .instr (.ldI (fieldNNN w)) := by
  rw [decode, decodeWith, h]; rfl

theorem decode_groupB {w : Word} (h : fieldG w = 11) : decode w = .instr (.jpV0 (fieldNNN w)) := by
  rw [decode, decodeWith, h]; rfl

theorem decode_groupC {w : Word} (h : fieldG w = 12) : decode w = .instr (.rnd (fieldX w) (fieldNN w)) := by
  rw [decode, decodeWith, h]; rfl

theorem decode_groupD {w : Word} (h : fieldG w = 13) : decode w = .instr (.drw (fieldX w) (fieldY w) (fieldN w)) := by
  rw [decode, decodeWith, h]; rfl

theorem decode_groupE {w : Word} (h : fieldG w = 14) : decode w = decodeGroupE w := by
  rw [decode, decodeWith, h]; rfl

theorem decode_groupF {w : Word} (h : fieldG w = 15) : decode w = decodeGroupF w := by
  rw [decode, decodeWith, h]; rfl

theorem fieldX_of {w : Word} {x : Reg} (h : w.toNat / 256 % 16 = x.val) : fieldX w = x :=
  Fin.ext (by rw [fieldX_eq, h])

theorem fieldY_of {w : Word} {y : Reg} (h : w.toNat / 16 % 16 = y.val) : fieldY w = y :=
  Fin.ext (by rw [fieldY_eq, h])

theorem fieldNN_of {w : Word} {nn : Byte} (h : w.toNat % 256 = nn.toNat) : fieldNN w = nn :=
  BitVec.eq_of_toNat_eq (by rw [fieldNN_eq, h])

/-- What the decoder reads is well formed, under every setting of ZERO_GROUP_SELECT. -/
theorem decodeWith_wf {sel : ZeroGroupSelect} {w : Word} {i : Instr} (h : decodeWith sel w = .instr i) :
    i.wf = true := by
  unfold decodeWith at h
  split at h
  case h_1 =>
    unfold decodeGroup0 at h
    split_ifs at h
    · cases h; rfl
    · cases h; rfl
    · unfold zeroGroup at h
      split at h <;> (try split_ifs at h) <;> cases h <;> rfl
  case h_9 =>
    unfold decodeGroup8 at h
    split at h <;> cases h <;> rfl
  case h_15 =>
    unfold decodeGroupE at h
    split at h <;> cases h <;> rfl
  case h_16 =>
    unfold decodeGroupF at h
    split at h <;> cases h <;> rfl
  all_goals cases h
  all_goals first | rfl | exact fieldNNN_fits w | exact fieldN_fits w

/-- A decoded instruction is well formed. -/
theorem decode_wf {w : Word} {i : Instr} (h : decode w = .instr i) : i.wf = true := decodeWith_wf h

end Sys2Proof
end

