-- ==== Sys2Proof/Laws/Memory.lean ====
section
/-! SUPPORT. The laws of memory: a read after a write, what a write leaves alone, the canonical form, and that canonical memories with the same reads are equal. -/

namespace Sys2Proof.Machine

theorem Memory.read_entry (a : Nat) (b : Byte) (m : Memory) (c : Nat) (hm : m.read a = Memory.unlisted a) :
    (Memory.entry a b m).read c = if c = a then b else m.read c := by
  unfold Memory.entry
  split <;> rename_i hb
  · split <;> rename_i hc
    · rw [hc, hm, hb]
    · rfl
  · rfl

/-- Below its first address a canonical memory lists nothing. -/
theorem Memory.read_below {lo : Nat} {m : Memory} (h : Memory.wfFrom lo m = true) {a : Nat} (ha : a < lo) :
    m.read a = Memory.unlisted a := by
  induction m generalizing lo with
  | nil => rfl
  | cons e m ih =>
    obtain ⟨k, b⟩ := e
    simp only [Memory.wfFrom, Bool.and_eq_true, decide_eq_true_eq] at h
    simp only [Memory.read, show ¬ a = k by omega, if_false]
    exact ih h.2 (by omega)

theorem Memory.wfFrom_mono {lo lo' : Nat} {m : Memory} (h : Memory.wfFrom lo m = true) (hl : lo' ≤ lo) :
    Memory.wfFrom lo' m = true := by
  cases m with
  | nil => rfl
  | cons e m =>
    obtain ⟨k, b⟩ := e
    simp only [Memory.wfFrom, Bool.and_eq_true, decide_eq_true_eq] at h ⊢
    exact ⟨⟨⟨by omega, h.1.1.2⟩, h.1.2⟩, h.2⟩

theorem Memory.wfFrom_entry {lo a : Nat} {b : Byte} {m : Memory} (hl : lo ≤ a) (ha : a < Config.memSize)
    (h : Memory.wfFrom (a + 1) m = true) : Memory.wfFrom lo (Memory.entry a b m) = true := by
  unfold Memory.entry
  split <;> rename_i hb
  · exact Memory.wfFrom_mono h (by omega)
  · simp [Memory.wfFrom, hl, ha, hb, h]

theorem Memory.wfFrom_write {lo a : Nat} {b : Byte} {m : Memory} (h : Memory.wfFrom lo m = true) (hl : lo ≤ a)
    (ha : a < Config.memSize) : Memory.wfFrom lo (Memory.write a b m) = true := by
  induction m generalizing lo with
  | nil => exact Memory.wfFrom_entry hl ha rfl
  | cons e m ih =>
    obtain ⟨k, c⟩ := e
    simp only [Memory.wfFrom, Bool.and_eq_true, decide_eq_true_eq] at h
    unfold Memory.write
    split_ifs with h1 h2
    · exact Memory.wfFrom_entry hl ha (by simp [Memory.wfFrom, h]; omega)
    · exact Memory.wfFrom_entry hl ha (h2 ▸ h.2)
    · simp only [Memory.wfFrom, Bool.and_eq_true, decide_eq_true_eq]
      exact ⟨h.1, ih h.2 (by omega)⟩

/-- A write to an address that exists keeps the canonical form. -/
theorem Memory.wf_write {m : Memory} (h : m.wf = true) {a : Nat} (ha : a < Config.memSize) (b : Byte) :
    (Memory.write a b m).wf = true :=
  Memory.wfFrom_write h (Nat.zero_le a) ha

theorem Memory.wf_nil : Memory.wf [] = true := rfl

theorem Memory.wf_writeAll {m : Memory} (h : m.wf = true) {a : Nat} {bs : List Byte}
    (ha : a + bs.length ≤ Config.memSize) : (Memory.writeAll a bs m).wf = true := by
  induction bs generalizing a m with
  | nil => exact h
  | cons b bs ih =>
    simp only [List.length_cons] at ha
    exact ih (Memory.wf_write h (by omega) b) (by omega)

theorem Memory.read_write_from {lo : Nat} {m : Memory} (h : Memory.wfFrom lo m = true) (a : Nat) (b : Byte) (c : Nat) :
    (Memory.write a b m).read c = if c = a then b else m.read c := by
  induction m generalizing lo with
  | nil => exact Memory.read_entry a b [] c rfl
  | cons e m ih =>
    obtain ⟨k, d⟩ := e
    have hw := h
    simp only [Memory.wfFrom, Bool.and_eq_true, decide_eq_true_eq] at h
    rcases Nat.lt_trichotomy a k with h1 | h1 | h1
    · rw [Memory.write, if_pos h1]
      exact Memory.read_entry a b _ c (Memory.read_below (lo := a + 1) (by simp [Memory.wfFrom, h]; omega) (by omega))
    · subst h1
      rw [Memory.write, if_neg (Nat.lt_irrefl a), if_pos rfl,
        Memory.read_entry a b m c (Memory.read_below h.2 (by omega))]
      by_cases hc : c = a <;> simp [Memory.read, hc]
    · rw [Memory.write, if_neg (by omega), if_neg (by omega)]
      by_cases hc : c = k
      · subst hc
        simp [Memory.read, show ¬ c = a by omega]
      · simp [Memory.read, hc, ih h.2]

/-- A read after a write in a canonical memory: the written byte at its address, and every other byte as before. -/
theorem Memory.read_write {m : Memory} (h : m.wf = true) (a : Nat) (b : Byte) (c : Nat) :
    (Memory.write a b m).read c = if c = a then b else m.read c :=
  Memory.read_write_from h a b c

/-- Writing several bytes: each at its address, and every byte outside as before. -/
theorem Memory.read_writeAll {m : Memory} (h : m.wf = true) {a : Nat} {bs : List Byte}
    (ha : a + bs.length ≤ Config.memSize) (c : Nat) :
    (Memory.writeAll a bs m).read c = if hc : a ≤ c ∧ c < a + bs.length then bs[c - a] else m.read c := by
  induction bs generalizing a m with
  | nil => simp [Memory.writeAll]
  | cons b bs ih =>
    simp only [List.length_cons] at ha
    rw [Memory.writeAll, ih (Memory.wf_write h (by omega) b) (by omega), Memory.read_write h]
    simp only [List.length_cons]
    by_cases hc : c = a
    · subst hc; simp
    · by_cases hin : a ≤ c ∧ c < a + (bs.length + 1)
      · have h1 : a + 1 ≤ c ∧ c < a + 1 + bs.length := by omega
        simp only [h1, hin, and_self, dite_true]
        simp only [show c - a = (c - (a + 1)) + 1 by omega, List.getElem_cons_succ]
      · have h1 : ¬ (a + 1 ≤ c ∧ c < a + 1 + bs.length) := by omega
        simp only [h1, hin, hc, dite_false, if_false]

theorem Memory.ext_from {lo : Nat} {m m' : Memory} (h : Memory.wfFrom lo m = true) (h' : Memory.wfFrom lo m' = true)
    (hr : ∀ a, m.read a = m'.read a) : m = m' := by
  induction m generalizing lo m' with
  | nil =>
    cases m' with
    | nil => rfl
    | cons e m' =>
      obtain ⟨k, b⟩ := e
      simp only [Memory.wfFrom, Bool.and_eq_true, bne_iff_ne, ne_eq] at h'
      exact absurd (by simpa [Memory.read] using (hr k).symm) h'.1.2
  | cons e m ih =>
    obtain ⟨k, b⟩ := e
    cases m' with
    | nil =>
      simp only [Memory.wfFrom, Bool.and_eq_true, bne_iff_ne, ne_eq] at h
      exact absurd (by simpa [Memory.read] using hr k) h.1.2
    | cons e' m' =>
      obtain ⟨k', b'⟩ := e'
      simp only [Memory.wfFrom, Bool.and_eq_true, bne_iff_ne, ne_eq, decide_eq_true_eq] at h h'
      have hk : k = k' := by
        rcases Nat.lt_trichotomy k k' with hlt | heq | hlt
        · have := hr k
          simp only [Memory.read, if_true, show ¬ k = k' by omega, if_false] at this
          rw [Memory.read_below h'.2 (by omega)] at this
          exact absurd this h.1.2
        · exact heq
        · have := hr k'
          simp only [Memory.read, if_true, show ¬ k' = k by omega, if_false] at this
          rw [Memory.read_below h.2 (by omega)] at this
          exact absurd this.symm h'.1.2
      subst hk
      have hb : b = b' := by simpa [Memory.read] using hr k
      subst hb
      rw [ih h.2 h'.2]
      intro a
      by_cases ha : a = k
      · subst ha
        rw [Memory.read_below h.2 (by omega), Memory.read_below h'.2 (by omega)]
      · simpa [Memory.read, ha] using hr a

/-- Equal memories are equal data: canonical memories that read alike at every address are the same list. -/
theorem Memory.ext_wf {m m' : Memory} (h : m.wf = true) (h' : m'.wf = true) (hr : ∀ a, m.read a = m'.read a) :
    m = m' :=
  Memory.ext_from h h' hr

end Sys2Proof.Machine
end

