-- ==== Sys2Proof/Laws/State.lean ====
section
/-! SUPPORT. One lemma per field per update of the state: what each shared operation leaves alone and what it sets. -/

namespace Sys2Proof.Machine

/-! ## setV -/

@[simp] theorem State.setV_mem (s : State) (x : Reg) (b : Byte) : (s.setV x b).mem = s.mem := rfl
@[simp] theorem State.setV_v (s : State) (x : Reg) (b : Byte) : (s.setV x b).v = s.v.set x b := rfl
@[simp] theorem State.setV_i (s : State) (x : Reg) (b : Byte) : (s.setV x b).i = s.i := rfl
@[simp] theorem State.setV_pc (s : State) (x : Reg) (b : Byte) : (s.setV x b).pc = s.pc := rfl
@[simp] theorem State.setV_stack (s : State) (x : Reg) (b : Byte) : (s.setV x b).stack = s.stack := rfl
@[simp] theorem State.setV_sp (s : State) (x : Reg) (b : Byte) : (s.setV x b).sp = s.sp := rfl
@[simp] theorem State.setV_dt (s : State) (x : Reg) (b : Byte) : (s.setV x b).dt = s.dt := rfl
@[simp] theorem State.setV_st (s : State) (x : Reg) (b : Byte) : (s.setV x b).st = s.st := rfl
@[simp] theorem State.setV_fb (s : State) (x : Reg) (b : Byte) : (s.setV x b).fb = s.fb := rfl
@[simp] theorem State.setV_redraw (s : State) (x : Reg) (b : Byte) : (s.setV x b).redraw = s.redraw := rfl
@[simp] theorem State.setV_key (s : State) (x : Reg) (b : Byte) : (s.setV x b).key = s.key := rfl
@[simp] theorem State.setV_klatch (s : State) (x : Reg) (b : Byte) : (s.setV x b).klatch = s.klatch := rfl
@[simp] theorem State.setV_kflag (s : State) (x : Reg) (b : Byte) : (s.setV x b).kflag = s.kflag := rfl
@[simp] theorem State.setV_jump (s : State) (x : Reg) (b : Byte) : (s.setV x b).jump = s.jump := rfl
@[simp] theorem State.setV_await (s : State) (x : Reg) (b : Byte) : (s.setV x b).await = s.await := rfl
@[simp] theorem State.setV_halt (s : State) (x : Reg) (b : Byte) : (s.setV x b).halt = s.halt := rfl
@[simp] theorem State.setV_refused (s : State) (x : Reg) (b : Byte) : (s.setV x b).refused = s.refused := rfl
@[simp] theorem State.setV_op (s : State) (x : Reg) (b : Byte) : (s.setV x b).op = s.op := rfl
@[simp] theorem State.setV_events (s : State) (x : Reg) (b : Byte) : (s.setV x b).events = s.events := rfl
@[simp] theorem State.setV_draws (s : State) (x : Reg) (b : Byte) : (s.setV x b).draws = s.draws := rfl

/-! ## raise -/

@[simp] theorem State.raise_mem (s : State) (c : Fatal) : (s.raise c).mem = s.mem := rfl
@[simp] theorem State.raise_v (s : State) (c : Fatal) : (s.raise c).v = s.v := rfl
@[simp] theorem State.raise_i (s : State) (c : Fatal) : (s.raise c).i = s.i := rfl
@[simp] theorem State.raise_pc (s : State) (c : Fatal) : (s.raise c).pc = s.pc := rfl
@[simp] theorem State.raise_stack (s : State) (c : Fatal) : (s.raise c).stack = s.stack := rfl
@[simp] theorem State.raise_sp (s : State) (c : Fatal) : (s.raise c).sp = s.sp := rfl
@[simp] theorem State.raise_dt (s : State) (c : Fatal) : (s.raise c).dt = s.dt := rfl
@[simp] theorem State.raise_st (s : State) (c : Fatal) : (s.raise c).st = s.st := rfl
@[simp] theorem State.raise_fb (s : State) (c : Fatal) : (s.raise c).fb = s.fb := rfl
@[simp] theorem State.raise_redraw (s : State) (c : Fatal) : (s.raise c).redraw = s.redraw := rfl
@[simp] theorem State.raise_key (s : State) (c : Fatal) : (s.raise c).key = s.key := rfl
@[simp] theorem State.raise_klatch (s : State) (c : Fatal) : (s.raise c).klatch = s.klatch := rfl
@[simp] theorem State.raise_kflag (s : State) (c : Fatal) : (s.raise c).kflag = s.kflag := rfl
@[simp] theorem State.raise_jump (s : State) (c : Fatal) : (s.raise c).jump = s.jump := rfl
@[simp] theorem State.raise_await (s : State) (c : Fatal) : (s.raise c).await = s.await := rfl
@[simp] theorem State.raise_halt (s : State) (c : Fatal) : (s.raise c).halt = some ⟨c, s.pc, s.op⟩ := rfl
@[simp] theorem State.raise_refused (s : State) (c : Fatal) : (s.raise c).refused = s.refused := rfl
@[simp] theorem State.raise_op (s : State) (c : Fatal) : (s.raise c).op = s.op := rfl
@[simp] theorem State.raise_events (s : State) (c : Fatal) : (s.raise c).events = s.events := rfl
@[simp] theorem State.raise_draws (s : State) (c : Fatal) : (s.raise c).draws = s.draws := rfl
@[simp] theorem State.raise_getV (s : State) (c : Fatal) (r : Reg) : (s.raise c).getV r = s.getV r := rfl

/-! ## jumpTo -/

@[simp] theorem State.jumpTo_mem (s : State) (t : Word) : (s.jumpTo t).mem = s.mem := rfl
@[simp] theorem State.jumpTo_v (s : State) (t : Word) : (s.jumpTo t).v = s.v := rfl
@[simp] theorem State.jumpTo_i (s : State) (t : Word) : (s.jumpTo t).i = s.i := rfl
@[simp] theorem State.jumpTo_pc (s : State) (t : Word) : (s.jumpTo t).pc = t := rfl
@[simp] theorem State.jumpTo_stack (s : State) (t : Word) : (s.jumpTo t).stack = s.stack := rfl
@[simp] theorem State.jumpTo_sp (s : State) (t : Word) : (s.jumpTo t).sp = s.sp := rfl
@[simp] theorem State.jumpTo_dt (s : State) (t : Word) : (s.jumpTo t).dt = s.dt := rfl
@[simp] theorem State.jumpTo_st (s : State) (t : Word) : (s.jumpTo t).st = s.st := rfl
@[simp] theorem State.jumpTo_fb (s : State) (t : Word) : (s.jumpTo t).fb = s.fb := rfl
@[simp] theorem State.jumpTo_redraw (s : State) (t : Word) : (s.jumpTo t).redraw = s.redraw := rfl
@[simp] theorem State.jumpTo_key (s : State) (t : Word) : (s.jumpTo t).key = s.key := rfl
@[simp] theorem State.jumpTo_klatch (s : State) (t : Word) : (s.jumpTo t).klatch = s.klatch := rfl
@[simp] theorem State.jumpTo_kflag (s : State) (t : Word) : (s.jumpTo t).kflag = s.kflag := rfl
@[simp] theorem State.jumpTo_jump (s : State) (t : Word) : (s.jumpTo t).jump = true := rfl
@[simp] theorem State.jumpTo_await (s : State) (t : Word) : (s.jumpTo t).await = s.await := rfl
@[simp] theorem State.jumpTo_halt (s : State) (t : Word) : (s.jumpTo t).halt = s.halt := rfl
@[simp] theorem State.jumpTo_refused (s : State) (t : Word) : (s.jumpTo t).refused = s.refused := rfl
@[simp] theorem State.jumpTo_op (s : State) (t : Word) : (s.jumpTo t).op = s.op := rfl
@[simp] theorem State.jumpTo_events (s : State) (t : Word) : (s.jumpTo t).events = s.events := rfl
@[simp] theorem State.jumpTo_draws (s : State) (t : Word) : (s.jumpTo t).draws = s.draws := rfl
@[simp] theorem State.jumpTo_getV (s : State) (t : Word) (r : Reg) : (s.jumpTo t).getV r = s.getV r := rfl

/-! ## drawn -/

@[simp] theorem State.drawn_mem (s : State) : (s.drawn).mem = s.mem := rfl
@[simp] theorem State.drawn_v (s : State) : (s.drawn).v = s.v := rfl
@[simp] theorem State.drawn_i (s : State) : (s.drawn).i = s.i := rfl
@[simp] theorem State.drawn_pc (s : State) : (s.drawn).pc = s.pc := rfl
@[simp] theorem State.drawn_stack (s : State) : (s.drawn).stack = s.stack := rfl
@[simp] theorem State.drawn_sp (s : State) : (s.drawn).sp = s.sp := rfl
@[simp] theorem State.drawn_dt (s : State) : (s.drawn).dt = s.dt := rfl
@[simp] theorem State.drawn_st (s : State) : (s.drawn).st = s.st := rfl
@[simp] theorem State.drawn_fb (s : State) : (s.drawn).fb = s.fb := rfl
@[simp] theorem State.drawn_redraw (s : State) : (s.drawn).redraw = s.redraw := rfl
@[simp] theorem State.drawn_key (s : State) : (s.drawn).key = s.key := rfl
@[simp] theorem State.drawn_klatch (s : State) : (s.drawn).klatch = s.klatch := rfl
@[simp] theorem State.drawn_kflag (s : State) : (s.drawn).kflag = s.kflag := rfl
@[simp] theorem State.drawn_jump (s : State) : (s.drawn).jump = s.jump := rfl
@[simp] theorem State.drawn_await (s : State) : (s.drawn).await = s.await := rfl
@[simp] theorem State.drawn_halt (s : State) : (s.drawn).halt = s.halt := rfl
@[simp] theorem State.drawn_refused (s : State) : (s.drawn).refused = s.refused := rfl
@[simp] theorem State.drawn_op (s : State) : (s.drawn).op = s.op := rfl
@[simp] theorem State.drawn_events (s : State) : (s.drawn).events = s.events := rfl
@[simp] theorem State.drawn_draws (s : State) : (s.drawn).draws = s.draws + 1 := rfl
@[simp] theorem State.drawn_getV (s : State) (r : Reg) : (s.drawn).getV r = s.getV r := rfl

/-! ## writeFromI -/

@[simp] theorem State.writeFromI_mem (s : State) (bs : List Byte) : (s.writeFromI bs).mem = s.mem.writeAll (s.dataAddr 0) bs := rfl
@[simp] theorem State.writeFromI_v (s : State) (bs : List Byte) : (s.writeFromI bs).v = s.v := rfl
@[simp] theorem State.writeFromI_i (s : State) (bs : List Byte) : (s.writeFromI bs).i = s.i := rfl
@[simp] theorem State.writeFromI_pc (s : State) (bs : List Byte) : (s.writeFromI bs).pc = s.pc := rfl
@[simp] theorem State.writeFromI_stack (s : State) (bs : List Byte) : (s.writeFromI bs).stack = s.stack := rfl
@[simp] theorem State.writeFromI_sp (s : State) (bs : List Byte) : (s.writeFromI bs).sp = s.sp := rfl
@[simp] theorem State.writeFromI_dt (s : State) (bs : List Byte) : (s.writeFromI bs).dt = s.dt := rfl
@[simp] theorem State.writeFromI_st (s : State) (bs : List Byte) : (s.writeFromI bs).st = s.st := rfl
@[simp] theorem State.writeFromI_fb (s : State) (bs : List Byte) : (s.writeFromI bs).fb = s.fb := rfl
@[simp] theorem State.writeFromI_redraw (s : State) (bs : List Byte) : (s.writeFromI bs).redraw = s.redraw := rfl
@[simp] theorem State.writeFromI_key (s : State) (bs : List Byte) : (s.writeFromI bs).key = s.key := rfl
@[simp] theorem State.writeFromI_klatch (s : State) (bs : List Byte) : (s.writeFromI bs).klatch = s.klatch := rfl
@[simp] theorem State.writeFromI_kflag (s : State) (bs : List Byte) : (s.writeFromI bs).kflag = s.kflag := rfl
@[simp] theorem State.writeFromI_jump (s : State) (bs : List Byte) : (s.writeFromI bs).jump = s.jump := rfl
@[simp] theorem State.writeFromI_await (s : State) (bs : List Byte) : (s.writeFromI bs).await = s.await := rfl
@[simp] theorem State.writeFromI_halt (s : State) (bs : List Byte) : (s.writeFromI bs).halt = s.halt := rfl
@[simp] theorem State.writeFromI_refused (s : State) (bs : List Byte) : (s.writeFromI bs).refused = s.refused := rfl
@[simp] theorem State.writeFromI_op (s : State) (bs : List Byte) : (s.writeFromI bs).op = s.op := rfl
@[simp] theorem State.writeFromI_events (s : State) (bs : List Byte) : (s.writeFromI bs).events = s.events := rfl
@[simp] theorem State.writeFromI_draws (s : State) (bs : List Byte) : (s.writeFromI bs).draws = s.draws := rfl
@[simp] theorem State.writeFromI_getV (s : State) (bs : List Byte) (r : Reg) : (s.writeFromI bs).getV r = s.getV r := rfl

/-! ## beginTick -/

@[simp] theorem State.beginTick_mem (s : State) : (s.beginTick).mem = s.mem := rfl
@[simp] theorem State.beginTick_v (s : State) : (s.beginTick).v = s.v := rfl
@[simp] theorem State.beginTick_i (s : State) : (s.beginTick).i = s.i := rfl
@[simp] theorem State.beginTick_pc (s : State) : (s.beginTick).pc = s.pc := rfl
@[simp] theorem State.beginTick_stack (s : State) : (s.beginTick).stack = s.stack := rfl
@[simp] theorem State.beginTick_sp (s : State) : (s.beginTick).sp = s.sp := rfl
@[simp] theorem State.beginTick_dt (s : State) : (s.beginTick).dt = s.dt := rfl
@[simp] theorem State.beginTick_st (s : State) : (s.beginTick).st = s.st := rfl
@[simp] theorem State.beginTick_fb (s : State) : (s.beginTick).fb = s.fb := rfl
@[simp] theorem State.beginTick_redraw (s : State) : (s.beginTick).redraw = false := rfl
@[simp] theorem State.beginTick_key (s : State) : (s.beginTick).key = s.key := rfl
@[simp] theorem State.beginTick_klatch (s : State) : (s.beginTick).klatch = s.klatch := rfl
@[simp] theorem State.beginTick_kflag (s : State) : (s.beginTick).kflag = s.kflag := rfl
@[simp] theorem State.beginTick_jump (s : State) : (s.beginTick).jump = false := rfl
@[simp] theorem State.beginTick_await (s : State) : (s.beginTick).await = false := rfl
@[simp] theorem State.beginTick_halt (s : State) : (s.beginTick).halt = s.halt := rfl
@[simp] theorem State.beginTick_refused (s : State) : (s.beginTick).refused = s.refused := rfl
@[simp] theorem State.beginTick_op (s : State) : (s.beginTick).op = none := rfl
@[simp] theorem State.beginTick_events (s : State) : (s.beginTick).events = [] := rfl
@[simp] theorem State.beginTick_draws (s : State) : (s.beginTick).draws = s.draws := rfl
@[simp] theorem State.beginTick_getV (s : State) (r : Reg) : (s.beginTick).getV r = s.getV r := rfl

/-! ## idleTick -/

@[simp] theorem State.idleTick_mem (s : State) : (s.idleTick).mem = s.mem := rfl
@[simp] theorem State.idleTick_v (s : State) : (s.idleTick).v = s.v := rfl
@[simp] theorem State.idleTick_i (s : State) : (s.idleTick).i = s.i := rfl
@[simp] theorem State.idleTick_pc (s : State) : (s.idleTick).pc = s.pc := rfl
@[simp] theorem State.idleTick_stack (s : State) : (s.idleTick).stack = s.stack := rfl
@[simp] theorem State.idleTick_sp (s : State) : (s.idleTick).sp = s.sp := rfl
@[simp] theorem State.idleTick_dt (s : State) : (s.idleTick).dt = s.dt := rfl
@[simp] theorem State.idleTick_st (s : State) : (s.idleTick).st = s.st := rfl
@[simp] theorem State.idleTick_fb (s : State) : (s.idleTick).fb = s.fb := rfl
@[simp] theorem State.idleTick_redraw (s : State) : (s.idleTick).redraw = s.redraw := rfl
@[simp] theorem State.idleTick_key (s : State) : (s.idleTick).key = s.key := rfl
@[simp] theorem State.idleTick_klatch (s : State) : (s.idleTick).klatch = s.klatch := rfl
@[simp] theorem State.idleTick_kflag (s : State) : (s.idleTick).kflag = s.kflag := rfl
@[simp] theorem State.idleTick_jump (s : State) : (s.idleTick).jump = s.jump := rfl
@[simp] theorem State.idleTick_await (s : State) : (s.idleTick).await = s.await := rfl
@[simp] theorem State.idleTick_halt (s : State) : (s.idleTick).halt = s.halt := rfl
@[simp] theorem State.idleTick_refused (s : State) : (s.idleTick).refused = s.refused := rfl
@[simp] theorem State.idleTick_op (s : State) : (s.idleTick).op = s.op := rfl
@[simp] theorem State.idleTick_events (s : State) : (s.idleTick).events = [] := rfl
@[simp] theorem State.idleTick_draws (s : State) : (s.idleTick).draws = s.draws := rfl
@[simp] theorem State.idleTick_getV (s : State) (r : Reg) : (s.idleTick).getV r = s.getV r := rfl

/-! ## emit -/

@[simp] theorem State.emit_mem (s : State) (e : Event) : (s.emit e).mem = s.mem := rfl
@[simp] theorem State.emit_v (s : State) (e : Event) : (s.emit e).v = s.v := rfl
@[simp] theorem State.emit_i (s : State) (e : Event) : (s.emit e).i = s.i := rfl
@[simp] theorem State.emit_pc (s : State) (e : Event) : (s.emit e).pc = s.pc := rfl
@[simp] theorem State.emit_stack (s : State) (e : Event) : (s.emit e).stack = s.stack := rfl
@[simp] theorem State.emit_sp (s : State) (e : Event) : (s.emit e).sp = s.sp := rfl
@[simp] theorem State.emit_dt (s : State) (e : Event) : (s.emit e).dt = s.dt := rfl
@[simp] theorem State.emit_st (s : State) (e : Event) : (s.emit e).st = s.st := rfl
@[simp] theorem State.emit_fb (s : State) (e : Event) : (s.emit e).fb = s.fb := rfl
@[simp] theorem State.emit_redraw (s : State) (e : Event) : (s.emit e).redraw = s.redraw := rfl
@[simp] theorem State.emit_key (s : State) (e : Event) : (s.emit e).key = s.key := rfl
@[simp] theorem State.emit_klatch (s : State) (e : Event) : (s.emit e).klatch = s.klatch := rfl
@[simp] theorem State.emit_kflag (s : State) (e : Event) : (s.emit e).kflag = s.kflag := rfl
@[simp] theorem State.emit_jump (s : State) (e : Event) : (s.emit e).jump = s.jump := rfl
@[simp] theorem State.emit_await (s : State) (e : Event) : (s.emit e).await = s.await := rfl
@[simp] theorem State.emit_halt (s : State) (e : Event) : (s.emit e).halt = s.halt := rfl
@[simp] theorem State.emit_refused (s : State) (e : Event) : (s.emit e).refused = s.refused := rfl
@[simp] theorem State.emit_op (s : State) (e : Event) : (s.emit e).op = s.op := rfl
@[simp] theorem State.emit_events (s : State) (e : Event) : (s.emit e).events = s.events ++ [e] := rfl
@[simp] theorem State.emit_draws (s : State) (e : Event) : (s.emit e).draws = s.draws := rfl
@[simp] theorem State.emit_getV (s : State) (e : Event) (r : Reg) : (s.emit e).getV r = s.getV r := rfl

/-! ## clearKeyFlag -/

@[simp] theorem State.clearKeyFlag_mem (s : State) : (s.clearKeyFlag).mem = s.mem := rfl
@[simp] theorem State.clearKeyFlag_v (s : State) : (s.clearKeyFlag).v = s.v := rfl
@[simp] theorem State.clearKeyFlag_i (s : State) : (s.clearKeyFlag).i = s.i := rfl
@[simp] theorem State.clearKeyFlag_pc (s : State) : (s.clearKeyFlag).pc = s.pc := rfl
@[simp] theorem State.clearKeyFlag_stack (s : State) : (s.clearKeyFlag).stack = s.stack := rfl
@[simp] theorem State.clearKeyFlag_sp (s : State) : (s.clearKeyFlag).sp = s.sp := rfl
@[simp] theorem State.clearKeyFlag_dt (s : State) : (s.clearKeyFlag).dt = s.dt := rfl
@[simp] theorem State.clearKeyFlag_st (s : State) : (s.clearKeyFlag).st = s.st := rfl
@[simp] theorem State.clearKeyFlag_fb (s : State) : (s.clearKeyFlag).fb = s.fb := rfl
@[simp] theorem State.clearKeyFlag_redraw (s : State) : (s.clearKeyFlag).redraw = s.redraw := rfl
@[simp] theorem State.clearKeyFlag_key (s : State) : (s.clearKeyFlag).key = s.key := rfl
@[simp] theorem State.clearKeyFlag_klatch (s : State) : (s.clearKeyFlag).klatch = s.klatch := rfl
@[simp] theorem State.clearKeyFlag_kflag (s : State) : (s.clearKeyFlag).kflag = false := rfl
@[simp] theorem State.clearKeyFlag_jump (s : State) : (s.clearKeyFlag).jump = s.jump := rfl
@[simp] theorem State.clearKeyFlag_await (s : State) : (s.clearKeyFlag).await = s.await := rfl
@[simp] theorem State.clearKeyFlag_halt (s : State) : (s.clearKeyFlag).halt = s.halt := rfl
@[simp] theorem State.clearKeyFlag_refused (s : State) : (s.clearKeyFlag).refused = s.refused := rfl
@[simp] theorem State.clearKeyFlag_op (s : State) : (s.clearKeyFlag).op = s.op := rfl
@[simp] theorem State.clearKeyFlag_events (s : State) : (s.clearKeyFlag).events = s.events := rfl
@[simp] theorem State.clearKeyFlag_draws (s : State) : (s.clearKeyFlag).draws = s.draws := rfl
@[simp] theorem State.clearKeyFlag_getV (s : State) (r : Reg) : (s.clearKeyFlag).getV r = s.getV r := rfl

/-! ## endTick -/

@[simp] theorem State.endTick_mem (s : State) : (s.endTick).mem = s.mem := rfl
@[simp] theorem State.endTick_v (s : State) : (s.endTick).v = s.v := rfl
@[simp] theorem State.endTick_i (s : State) : (s.endTick).i = s.i := rfl
@[simp] theorem State.endTick_pc (s : State) : (s.endTick).pc = s.pc := rfl
@[simp] theorem State.endTick_stack (s : State) : (s.endTick).stack = s.stack := rfl
@[simp] theorem State.endTick_sp (s : State) : (s.endTick).sp = s.sp := rfl
@[simp] theorem State.endTick_dt (s : State) : (s.endTick).dt = s.dt := rfl
@[simp] theorem State.endTick_st (s : State) : (s.endTick).st = s.st := rfl
@[simp] theorem State.endTick_fb (s : State) : (s.endTick).fb = s.fb := rfl
@[simp] theorem State.endTick_redraw (s : State) : (s.endTick).redraw = s.redraw := rfl
@[simp] theorem State.endTick_key (s : State) : (s.endTick).key = s.key := rfl
@[simp] theorem State.endTick_klatch (s : State) : (s.endTick).klatch = s.klatch := rfl
@[simp] theorem State.endTick_kflag (s : State) : (s.endTick).kflag = s.kflag := rfl
@[simp] theorem State.endTick_jump (s : State) : (s.endTick).jump = s.jump := rfl
@[simp] theorem State.endTick_await (s : State) : (s.endTick).await = s.await := rfl
@[simp] theorem State.endTick_halt (s : State) : (s.endTick).halt = s.halt := rfl
@[simp] theorem State.endTick_refused (s : State) : (s.endTick).refused = s.refused := rfl
@[simp] theorem State.endTick_op (s : State) : (s.endTick).op = none := rfl
@[simp] theorem State.endTick_events (s : State) : (s.endTick).events = s.events := rfl
@[simp] theorem State.endTick_draws (s : State) : (s.endTick).draws = s.draws := rfl
@[simp] theorem State.endTick_getV (s : State) (r : Reg) : (s.endTick).getV r = s.getV r := rfl

/-! ## skipIf -/

@[simp] theorem State.skipIf_mem (s : State) (c : Bool) : (s.skipIf c).mem = s.mem := by unfold State.skipIf; split_ifs <;> rfl
@[simp] theorem State.skipIf_v (s : State) (c : Bool) : (s.skipIf c).v = s.v := by unfold State.skipIf; split_ifs <;> rfl
@[simp] theorem State.skipIf_i (s : State) (c : Bool) : (s.skipIf c).i = s.i := by unfold State.skipIf; split_ifs <;> rfl
@[simp] theorem State.skipIf_pc (s : State) (c : Bool) : (s.skipIf c).pc = if c then s.pc + 2 else s.pc := by
  unfold State.skipIf; split_ifs <;> simp_all
@[simp] theorem State.skipIf_stack (s : State) (c : Bool) : (s.skipIf c).stack = s.stack := by unfold State.skipIf; split_ifs <;> rfl
@[simp] theorem State.skipIf_sp (s : State) (c : Bool) : (s.skipIf c).sp = s.sp := by unfold State.skipIf; split_ifs <;> rfl
@[simp] theorem State.skipIf_dt (s : State) (c : Bool) : (s.skipIf c).dt = s.dt := by unfold State.skipIf; split_ifs <;> rfl
@[simp] theorem State.skipIf_st (s : State) (c : Bool) : (s.skipIf c).st = s.st := by unfold State.skipIf; split_ifs <;> rfl
@[simp] theorem State.skipIf_fb (s : State) (c : Bool) : (s.skipIf c).fb = s.fb := by unfold State.skipIf; split_ifs <;> rfl
@[simp] theorem State.skipIf_redraw (s : State) (c : Bool) : (s.skipIf c).redraw = s.redraw := by unfold State.skipIf; split_ifs <;> rfl
@[simp] theorem State.skipIf_key (s : State) (c : Bool) : (s.skipIf c).key = s.key := by unfold State.skipIf; split_ifs <;> rfl
@[simp] theorem State.skipIf_klatch (s : State) (c : Bool) : (s.skipIf c).klatch = s.klatch := by unfold State.skipIf; split_ifs <;> rfl
@[simp] theorem State.skipIf_kflag (s : State) (c : Bool) : (s.skipIf c).kflag = s.kflag := by unfold State.skipIf; split_ifs <;> rfl
@[simp] theorem State.skipIf_jump (s : State) (c : Bool) : (s.skipIf c).jump = s.jump := by unfold State.skipIf; split_ifs <;> rfl
@[simp] theorem State.skipIf_await (s : State) (c : Bool) : (s.skipIf c).await = s.await := by unfold State.skipIf; split_ifs <;> rfl
@[simp] theorem State.skipIf_halt (s : State) (c : Bool) : (s.skipIf c).halt = s.halt := by unfold State.skipIf; split_ifs <;> rfl
@[simp] theorem State.skipIf_refused (s : State) (c : Bool) : (s.skipIf c).refused = s.refused := by unfold State.skipIf; split_ifs <;> rfl
@[simp] theorem State.skipIf_op (s : State) (c : Bool) : (s.skipIf c).op = s.op := by unfold State.skipIf; split_ifs <;> rfl
@[simp] theorem State.skipIf_events (s : State) (c : Bool) : (s.skipIf c).events = s.events := by unfold State.skipIf; split_ifs <;> rfl
@[simp] theorem State.skipIf_draws (s : State) (c : Bool) : (s.skipIf c).draws = s.draws := by unfold State.skipIf; split_ifs <;> rfl
@[simp] theorem State.skipIf_getV (s : State) (c : Bool) (r : Reg) : (s.skipIf c).getV r = s.getV r := by unfold State.skipIf; split_ifs <;> rfl

/-! ## advancePc -/

@[simp] theorem State.advancePc_mem (s : State) : (s.advancePc).mem = s.mem := by unfold State.advancePc; split_ifs <;> rfl
@[simp] theorem State.advancePc_v (s : State) : (s.advancePc).v = s.v := by unfold State.advancePc; split_ifs <;> rfl
@[simp] theorem State.advancePc_i (s : State) : (s.advancePc).i = s.i := by unfold State.advancePc; split_ifs <;> rfl
@[simp] theorem State.advancePc_pc (s : State) : (s.advancePc).pc = if s.jump then s.pc else s.pc + 2 := by
  unfold State.advancePc; split_ifs <;> simp_all
@[simp] theorem State.advancePc_stack (s : State) : (s.advancePc).stack = s.stack := by unfold State.advancePc; split_ifs <;> rfl
@[simp] theorem State.advancePc_sp (s : State) : (s.advancePc).sp = s.sp := by unfold State.advancePc; split_ifs <;> rfl
@[simp] theorem State.advancePc_dt (s : State) : (s.advancePc).dt = s.dt := by unfold State.advancePc; split_ifs <;> rfl
@[simp] theorem State.advancePc_st (s : State) : (s.advancePc).st = s.st := by unfold State.advancePc; split_ifs <;> rfl
@[simp] theorem State.advancePc_fb (s : State) : (s.advancePc).fb = s.fb := by unfold State.advancePc; split_ifs <;> rfl
@[simp] theorem State.advancePc_redraw (s : State) : (s.advancePc).redraw = s.redraw := by unfold State.advancePc; split_ifs <;> rfl
@[simp] theorem State.advancePc_key (s : State) : (s.advancePc).key = s.key := by unfold State.advancePc; split_ifs <;> rfl
@[simp] theorem State.advancePc_klatch (s : State) : (s.advancePc).klatch = s.klatch := by unfold State.advancePc; split_ifs <;> rfl
@[simp] theorem State.advancePc_kflag (s : State) : (s.advancePc).kflag = s.kflag := by unfold State.advancePc; split_ifs <;> rfl
@[simp] theorem State.advancePc_jump (s : State) : (s.advancePc).jump = s.jump := by unfold State.advancePc; split_ifs <;> rfl
@[simp] theorem State.advancePc_await (s : State) : (s.advancePc).await = s.await := by unfold State.advancePc; split_ifs <;> rfl
@[simp] theorem State.advancePc_halt (s : State) : (s.advancePc).halt = s.halt := by unfold State.advancePc; split_ifs <;> rfl
@[simp] theorem State.advancePc_refused (s : State) : (s.advancePc).refused = s.refused := by unfold State.advancePc; split_ifs <;> rfl
@[simp] theorem State.advancePc_op (s : State) : (s.advancePc).op = s.op := by unfold State.advancePc; split_ifs <;> rfl
@[simp] theorem State.advancePc_events (s : State) : (s.advancePc).events = s.events := by unfold State.advancePc; split_ifs <;> rfl
@[simp] theorem State.advancePc_draws (s : State) : (s.advancePc).draws = s.draws := by unfold State.advancePc; split_ifs <;> rfl
@[simp] theorem State.advancePc_getV (s : State) (r : Reg) : (s.advancePc).getV r = s.getV r := by unfold State.advancePc; split_ifs <;> rfl

/-! ## tickDelay -/

@[simp] theorem State.tickDelay_mem (s : State) : (s.tickDelay).mem = s.mem := by unfold State.tickDelay; split_ifs <;> rfl
@[simp] theorem State.tickDelay_v (s : State) : (s.tickDelay).v = s.v := by unfold State.tickDelay; split_ifs <;> rfl
@[simp] theorem State.tickDelay_i (s : State) : (s.tickDelay).i = s.i := by unfold State.tickDelay; split_ifs <;> rfl
@[simp] theorem State.tickDelay_pc (s : State) : (s.tickDelay).pc = s.pc := by unfold State.tickDelay; split_ifs <;> rfl
@[simp] theorem State.tickDelay_stack (s : State) : (s.tickDelay).stack = s.stack := by unfold State.tickDelay; split_ifs <;> rfl
@[simp] theorem State.tickDelay_sp (s : State) : (s.tickDelay).sp = s.sp := by unfold State.tickDelay; split_ifs <;> rfl
@[simp] theorem State.tickDelay_dt (s : State) : (s.tickDelay).dt = if s.dt = 0 then 0 else s.dt - 1 := by
  unfold State.tickDelay; split_ifs <;> simp_all
@[simp] theorem State.tickDelay_st (s : State) : (s.tickDelay).st = s.st := by unfold State.tickDelay; split_ifs <;> rfl
@[simp] theorem State.tickDelay_fb (s : State) : (s.tickDelay).fb = s.fb := by unfold State.tickDelay; split_ifs <;> rfl
@[simp] theorem State.tickDelay_redraw (s : State) : (s.tickDelay).redraw = s.redraw := by unfold State.tickDelay; split_ifs <;> rfl
@[simp] theorem State.tickDelay_key (s : State) : (s.tickDelay).key = s.key := by unfold State.tickDelay; split_ifs <;> rfl
@[simp] theorem State.tickDelay_klatch (s : State) : (s.tickDelay).klatch = s.klatch := by unfold State.tickDelay; split_ifs <;> rfl
@[simp] theorem State.tickDelay_kflag (s : State) : (s.tickDelay).kflag = s.kflag := by unfold State.tickDelay; split_ifs <;> rfl
@[simp] theorem State.tickDelay_jump (s : State) : (s.tickDelay).jump = s.jump := by unfold State.tickDelay; split_ifs <;> rfl
@[simp] theorem State.tickDelay_await (s : State) : (s.tickDelay).await = s.await := by unfold State.tickDelay; split_ifs <;> rfl
@[simp] theorem State.tickDelay_halt (s : State) : (s.tickDelay).halt = s.halt := by unfold State.tickDelay; split_ifs <;> rfl
@[simp] theorem State.tickDelay_refused (s : State) : (s.tickDelay).refused = s.refused := by unfold State.tickDelay; split_ifs <;> rfl
@[simp] theorem State.tickDelay_op (s : State) : (s.tickDelay).op = s.op := by unfold State.tickDelay; split_ifs <;> rfl
@[simp] theorem State.tickDelay_events (s : State) : (s.tickDelay).events = s.events := by unfold State.tickDelay; split_ifs <;> rfl
@[simp] theorem State.tickDelay_draws (s : State) : (s.tickDelay).draws = s.draws := by unfold State.tickDelay; split_ifs <;> rfl
@[simp] theorem State.tickDelay_getV (s : State) (r : Reg) : (s.tickDelay).getV r = s.getV r := by unfold State.tickDelay; split_ifs <;> rfl

/-! ## tickSound -/

@[simp] theorem State.tickSound_mem (s : State) : (s.tickSound).mem = s.mem := by unfold State.tickSound; split_ifs <;> rfl
@[simp] theorem State.tickSound_v (s : State) : (s.tickSound).v = s.v := by unfold State.tickSound; split_ifs <;> rfl
@[simp] theorem State.tickSound_i (s : State) : (s.tickSound).i = s.i := by unfold State.tickSound; split_ifs <;> rfl
@[simp] theorem State.tickSound_pc (s : State) : (s.tickSound).pc = s.pc := by unfold State.tickSound; split_ifs <;> rfl
@[simp] theorem State.tickSound_stack (s : State) : (s.tickSound).stack = s.stack := by unfold State.tickSound; split_ifs <;> rfl
@[simp] theorem State.tickSound_sp (s : State) : (s.tickSound).sp = s.sp := by unfold State.tickSound; split_ifs <;> rfl
@[simp] theorem State.tickSound_dt (s : State) : (s.tickSound).dt = s.dt := by unfold State.tickSound; split_ifs <;> rfl
@[simp] theorem State.tickSound_st (s : State) : (s.tickSound).st = if s.st = 0 then 0 else s.st - 1 := by
  unfold State.tickSound; split_ifs <;> simp_all [State.emit]
@[simp] theorem State.tickSound_fb (s : State) : (s.tickSound).fb = s.fb := by unfold State.tickSound; split_ifs <;> rfl
@[simp] theorem State.tickSound_redraw (s : State) : (s.tickSound).redraw = s.redraw := by unfold State.tickSound; split_ifs <;> rfl
@[simp] theorem State.tickSound_key (s : State) : (s.tickSound).key = s.key := by unfold State.tickSound; split_ifs <;> rfl
@[simp] theorem State.tickSound_klatch (s : State) : (s.tickSound).klatch = s.klatch := by unfold State.tickSound; split_ifs <;> rfl
@[simp] theorem State.tickSound_kflag (s : State) : (s.tickSound).kflag = s.kflag := by unfold State.tickSound; split_ifs <;> rfl
@[simp] theorem State.tickSound_jump (s : State) : (s.tickSound).jump = s.jump := by unfold State.tickSound; split_ifs <;> rfl
@[simp] theorem State.tickSound_await (s : State) : (s.tickSound).await = s.await := by unfold State.tickSound; split_ifs <;> rfl
@[simp] theorem State.tickSound_halt (s : State) : (s.tickSound).halt = s.halt := by unfold State.tickSound; split_ifs <;> rfl
@[simp] theorem State.tickSound_refused (s : State) : (s.tickSound).refused = s.refused := by unfold State.tickSound; split_ifs <;> rfl
@[simp] theorem State.tickSound_op (s : State) : (s.tickSound).op = s.op := by unfold State.tickSound; split_ifs <;> rfl
@[simp] theorem State.tickSound_events (s : State) : (s.tickSound).events = if s.st = 1 then s.events ++ [.soundStop] else s.events := by
  unfold State.tickSound; split_ifs <;> simp_all [State.emit]
@[simp] theorem State.tickSound_draws (s : State) : (s.tickSound).draws = s.draws := by unfold State.tickSound; split_ifs <;> rfl
@[simp] theorem State.tickSound_getV (s : State) (r : Reg) : (s.tickSound).getV r = s.getV r := by unfold State.tickSound; split_ifs <;> rfl

/-! ## Reading a register after a write -/

theorem State.getV_setV (s : State) (x : Reg) (b : Byte) (r : Reg) :
    (s.setV x b).getV r = if r = x then b else s.getV r := by
  simp only [State.getV, State.setV, Fin.getElem_fin, Vector.getElem_set]
  by_cases h : r = x
  · simp [h]
  · rw [if_neg h, if_neg fun e => h (Fin.ext e.symm)]

@[simp] theorem State.getV_setV_same (s : State) (x : Reg) (b : Byte) : (s.setV x b).getV x = b := by
  simp [State.getV_setV]

theorem State.getV_setV_other (s : State) {x r : Reg} (b : Byte) (h : r ≠ x) : (s.setV x b).getV r = s.getV r := by
  simp [State.getV_setV, h]

/-- Two states with the same registers, read one by one, have the same register file. -/
theorem State.v_ext {s t : State} (h : ∀ r, t.getV r = s.getV r) : t.v = s.v :=
  Vector.ext fun k hk => h ⟨k, hk⟩

end Sys2Proof.Machine
end

