-- ==== Sys2Proof/Laws/Ops.lean ====
section
/-! SUPPORT. For each shared operation, once, everything it can do: the checked access through I, the return stack, the key operand, the two flag orders. -/

namespace Sys2Proof.Machine

/-! ## The access through I (R75) -/

theorem State.firstOutOfRange_none (s : State) (n : Nat) :
    s.firstOutOfRange n = none ↔ n = 0 ∨ s.i.toNat + n ≤ Config.memSize := by
  simp only [State.firstOutOfRange, List.find?_eq_none, List.mem_map, List.mem_range, decide_eq_true_eq,
    forall_exists_index, and_imp, State.dataAddr]
  constructor
  · intro h
    rcases Nat.eq_zero_or_pos n with hn | hn
    · exact Or.inl hn
    · have := h (s.i.toNat + (n - 1)) (n - 1) (by omega) rfl
      omega
  · rintro h a k hk rfl
    omega

/-- All `n` addresses from I exist: the access goes on. -/
theorem State.checkedAccess_next (s : State) {n : Nat} (t : State) (h : n = 0 ∨ s.i.toNat + n ≤ Config.memSize) :
    s.checkedAccess n t = .next t := by
  rw [State.checkedAccess, (s.firstOutOfRange_none n).mpr h]

theorem find_range_map_add (i n lim : Nat) (h : lim < i + n) (hi : i ≤ lim) :
    ((List.range n).map (i + ·)).find? (fun a => decide (lim ≤ a)) = some lim := by
  induction n generalizing i with
  | zero => omega
  | succ n ih =>
    rw [List.range_succ_eq_map, List.map_cons, List.find?_cons]
    by_cases he : i = lim
    · simp [he]
    · have hmap : List.map (i + ·) (List.map Nat.succ (List.range n)) = (List.range n).map (i + 1 + ·) := by
        rw [List.map_map]
        exact List.map_congr_left fun k _ => by simp; omega
      have hd : decide (lim ≤ i + 0) = false := by simp; omega
      rw [hd, hmap]
      exact ih (i + 1) (by omega) (by omega)

/-- Some address does not exist: MemOutOfRange, with the lowest one, and no other change. -/
theorem State.checkedAccess_raise (s : State) {n : Nat} (t : State) (hn : 0 < n)
    (h : Config.memSize < s.i.toNat + n) :
    s.checkedAccess n t = .next (s.raise (.memOutOfRange (max s.i.toNat Config.memSize))) := by
  have hf : s.firstOutOfRange n = some (max s.i.toNat Config.memSize) := by
    rcases Nat.le_total s.i.toNat Config.memSize with hi | hi
    · rw [max_eq_right hi]
      exact find_range_map_add _ _ _ h hi
    · rw [max_eq_left hi]
      obtain ⟨n, rfl⟩ : ∃ k, n = k + 1 := ⟨n - 1, by omega⟩
      rw [State.firstOutOfRange, List.range_succ_eq_map, List.map_cons, List.find?_cons]
      simp [State.dataAddr, hi]
  rw [State.checkedAccess, hf]

/-- Everything a checked access can do. -/
theorem State.checkedAccess_cases {s t u : State} {n : Nat} (h : s.checkedAccess n t = .next u) :
    ((n = 0 ∨ s.i.toNat + n ≤ Config.memSize) ∧ u = t) ∨
      ((0 < n ∧ Config.memSize < s.i.toNat + n) ∧
        u = s.raise (.memOutOfRange (max s.i.toNat Config.memSize))) := by
  by_cases hn : n = 0 ∨ s.i.toNat + n ≤ Config.memSize
  · rw [s.checkedAccess_next t hn, Host.Outcome.next.injEq] at h
    exact Or.inl ⟨hn, h.symm⟩
  · rw [s.checkedAccess_raise t (by omega) (by omega), Host.Outcome.next.injEq] at h
    exact Or.inr ⟨by omega, h.symm⟩

@[simp] theorem State.readFromI_length (s : State) (n : Nat) : (s.readFromI n).length = n := by
  simp [State.readFromI]

@[simp] theorem State.readFromI_getElem (s : State) (n k : Nat) (h : k < (s.readFromI n).length) :
    (s.readFromI n)[k] = s.mem.read (s.i.toNat + k) := by
  simp [State.readFromI, State.dataAddr]

/-! ## The return stack (R180, R182) -/

theorem State.pushThen_next (s : State) (t : Word) (k : State → State) (h : s.sp.val < 16) :
    s.pushThen t k = .next (k { s with stack := s.stack.set s.sp.val t, sp := ⟨s.sp.val + 1, by omega⟩ }) := by
  rw [State.pushThen, dif_pos h]

theorem State.pushThen_raise (s : State) (t : Word) (k : State → State) (h : s.sp.val = 16) :
    s.pushThen t k = .next (s.raise .stackOverflow) := by
  rw [State.pushThen, dif_neg (by omega)]

theorem State.pushThen_cases {s u : State} {t : Word} {k : State → State} (h : s.pushThen t k = .next u) :
    (∃ hs : s.sp.val < 16,
      u = k { s with stack := s.stack.set s.sp.val t, sp := ⟨s.sp.val + 1, by omega⟩ }) ∨
      (s.sp.val = 16 ∧ u = s.raise .stackOverflow) := by
  by_cases hs : s.sp.val < 16
  · rw [s.pushThen_next t k hs, Host.Outcome.next.injEq] at h
    exact Or.inl ⟨hs, h.symm⟩
  · have hs : s.sp.val = 16 := by omega
    rw [s.pushThen_raise t k hs, Host.Outcome.next.injEq] at h
    exact Or.inr ⟨hs, h.symm⟩

theorem State.popThen_next (s : State) (k : Word → State → State) (h : s.sp.val ≠ 0) :
    s.popThen k = .next (k (s.stack[s.sp.val - 1]'(by omega))
      { s with stack := s.stack.set (s.sp.val - 1) 0 (by omega), sp := ⟨s.sp.val - 1, by omega⟩ }) := by
  rw [State.popThen, dif_neg h]

theorem State.popThen_raise (s : State) (k : Word → State → State) (h : s.sp.val = 0) :
    s.popThen k = .next (s.raise .stackUnderflow) := by
  rw [State.popThen, dif_pos h]

theorem State.popThen_cases {s u : State} {k : Word → State → State} (h : s.popThen k = .next u) :
    (∃ _ : s.sp.val ≠ 0, u = k (s.stack[s.sp.val - 1]'(by omega))
      { s with stack := s.stack.set (s.sp.val - 1) 0 (by omega), sp := ⟨s.sp.val - 1, by omega⟩ }) ∨
      (s.sp.val = 0 ∧ u = s.raise .stackUnderflow) := by
  by_cases hs : s.sp.val = 0
  · rw [s.popThen_raise k hs, Host.Outcome.next.injEq] at h
    exact Or.inr ⟨hs, h.symm⟩
  · rw [s.popThen_next k hs, Host.Outcome.next.injEq] at h
    exact Or.inl ⟨hs, h.symm⟩

/-! ## The key operand (R280) -/

theorem State.withKey_next (s : State) (x : Reg) (k : Bool → State) (h : (s.getV x).toNat < 16) :
    s.withKey x k = .next (k s.key[(s.getV x).toNat]) := by
  rw [State.withKey, dif_pos h]

theorem State.withKey_raise (s : State) (x : Reg) (k : Bool → State) (h : 16 ≤ (s.getV x).toNat) :
    s.withKey x k = .next (s.raise (.keyIndexOutOfRange (s.getV x))) := by
  rw [State.withKey, dif_neg (by omega)]

theorem State.withKey_cases {s u : State} {x : Reg} {k : Bool → State} (h : s.withKey x k = .next u) :
    (∃ hx : (s.getV x).toNat < 16, u = k s.key[(s.getV x).toNat]) ∨
      (16 ≤ (s.getV x).toNat ∧ u = s.raise (.keyIndexOutOfRange (s.getV x))) := by
  by_cases hx : (s.getV x).toNat < 16
  · rw [s.withKey_next x k hx, Host.Outcome.next.injEq] at h
    exact Or.inl ⟨hx, h.symm⟩
  · rw [s.withKey_raise x k (by omega), Host.Outcome.next.injEq] at h
    exact Or.inr ⟨by omega, h.symm⟩

/-! ## The flag and its order (R211) -/

theorem State.setV_comm (s : State) {x y : Reg} (h : x ≠ y) (a b : Byte) :
    (s.setV x a).setV y b = (s.setV y b).setV x a := by
  have hv : (s.v.set x a).set y b = (s.v.set y b).set x a := by
    apply Vector.ext
    intro k hk
    have : ¬ x.val = y.val := fun e => h (Fin.ext e)
    simp only [Vector.getElem_set]
    split_ifs <;> first | rfl | omega
  simp [State.setV, hv]

/-- Away from VF the two orders give the same state (R211). -/
theorem State.flagged_order_irrelevant (s : State) {x y : Reg} (hx : x ≠ vF) (hy : y ≠ vF) (o o' : VfWriteOrder)
    (flag : Byte → Byte → Bool) (result : Byte → Byte → Byte) :
    s.flagged o x y flag result = s.flagged o' x y flag result := by
  have key : s.flagged .flagFirst x y flag result = s.flagged .operandsFirst x y flag result := by
    simp only [State.flagged, State.getV_setV_other _ _ hx, State.getV_setV_other _ _ hy]
    rw [State.setV_comm _ (Ne.symm hx)]
  cases o <;> cases o' <;> simp [key]

/-- `orderFor` changes nothing: the block's own order is the one that counts, for all registers (R211). -/
theorem State.flagged_orderFor (s : State) (x y : Reg) (flag : Byte → Byte → Bool) (result : Byte → Byte → Byte) :
    s.flagged (orderFor x y) x y flag result = s.flagged Config.vfWriteOrder x y flag result := by
  unfold orderFor
  split_ifs with h
  · rfl
  · exact s.flagged_order_irrelevant (fun e => h (Or.inl e)) (fun e => h (Or.inr e)) _ _ _ _

theorem State.indexAddend_orderFor (s : State) (x : Reg) :
    s.indexAddend (orderFor x x) x = s.indexAddend Config.vfWriteOrder x := by
  unfold orderFor
  split_ifs with h
  · rfl
  · have hx : x ≠ vF := fun e => h (Or.inl e)
    cases Config.vfWriteOrder <;> simp [State.indexAddend, hx]

/-- FX1E in the block's own order, for all registers (R251). -/
theorem State.addIndex_orderFor (s : State) (x : Reg) :
    s.addIndex (orderFor x x) x = s.addIndex Config.vfWriteOrder x := by
  simp only [State.addIndex, State.indexAddend_orderFor]

theorem State.getV_flagged_flagFirst (s : State) (x y : Reg) (flag : Byte → Byte → Bool)
    (result : Byte → Byte → Byte) (r : Reg) :
    (s.flagged .flagFirst x y flag result).getV r =
      if r = x then
        result (if x = vF then boolByte (flag (s.getV x) (s.getV y)) else s.getV x)
          (if y = vF then boolByte (flag (s.getV x) (s.getV y)) else s.getV y)
      else if r = vF then boolByte (flag (s.getV x) (s.getV y)) else s.getV r := by
  simp only [State.flagged, State.getV_setV]

theorem State.getV_flagged_operandsFirst (s : State) (x y : Reg) (flag : Byte → Byte → Bool)
    (result : Byte → Byte → Byte) (r : Reg) :
    (s.flagged .operandsFirst x y flag result).getV r =
      if r = vF then boolByte (flag (s.getV x) (s.getV y))
      else if r = x then result (s.getV x) (s.getV y) else s.getV r := by
  simp only [State.flagged, State.getV_setV]

/-- A flag-setting instruction changes the register file only. -/
theorem State.flagged_eq (s : State) (o : VfWriteOrder) (x y : Reg) (flag : Byte → Byte → Bool)
    (result : Byte → Byte → Byte) :
    s.flagged o x y flag result = { s with v := (s.flagged o x y flag result).v } := by
  cases o <;> rfl

theorem State.addIndex_next (s : State) (o : VfWriteOrder) (x : Reg)
    (h : s.i.toNat + (s.indexAddend o x).toNat ≤ 0xFFFF) :
    s.addIndex o x = .next { s.setV vF (boolByte (indexFlag s.i (s.getV x))) with
      i := BitVec.ofNat 16 (s.i.toNat + (s.indexAddend o x).toNat) } := by
  simp only [State.addIndex]
  rw [if_neg (by omega)]

theorem State.addIndex_raise (s : State) (o : VfWriteOrder) (x : Reg)
    (h : 0xFFFF < s.i.toNat + (s.indexAddend o x).toNat) :
    s.addIndex o x = .next (s.raise (.indexOverflow (s.i.toNat + (s.indexAddend o x).toNat))) := by
  simp only [State.addIndex]
  rw [if_pos h]

theorem State.addIndex_cases {s u : State} {o : VfWriteOrder} {x : Reg} (h : s.addIndex o x = .next u) :
    (s.i.toNat + (s.indexAddend o x).toNat ≤ 0xFFFF ∧
      u = { s.setV vF (boolByte (indexFlag s.i (s.getV x))) with
        i := BitVec.ofNat 16 (s.i.toNat + (s.indexAddend o x).toNat) }) ∨
      (0xFFFF < s.i.toNat + (s.indexAddend o x).toNat ∧
        u = s.raise (.indexOverflow (s.i.toNat + (s.indexAddend o x).toNat))) := by
  by_cases hs : s.i.toNat + (s.indexAddend o x).toNat ≤ 0xFFFF
  · rw [s.addIndex_next o x hs, Host.Outcome.next.injEq] at h
    exact Or.inl ⟨hs, h.symm⟩
  · rw [s.addIndex_raise o x (by omega), Host.Outcome.next.injEq] at h
    exact Or.inr ⟨by omega, h.symm⟩

end Sys2Proof.Machine
end

