-- ==== Sys2Proof/Laws/Display.lean ====
section
/-! SUPPORT. What drawing a sprite does to each cell and to the collision flag (R161 to R163). -/

namespace Sys2Proof.Machine

/-- Within one sprite no cell is touched twice (R162). -/
theorem cellIndex_injective {cx cy r r' c c' : Nat} (hr : r < 32) (hr' : r' < 32) (hc : c < 8) (hc' : c' < 8)
    (h : cellIndex cx cy r c = cellIndex cx cy r' c') : r = r' ∧ c = c' := by
  have hv := congrArg Fin.val h
  simp only [cellIndex, Config.displayWidth, Config.cells] at hv
  omega

/-- The columns of one sprite byte that fall on cell `k` with a 1 bit. -/
def rowCovers (cx cy r : Nat) (b : Byte) (k : Fin Config.cells) (cs : List Nat) : Prop :=
  ∃ c ∈ cs, cellIndex cx cy r c = k ∧ spriteBit b c = true

theorem getElem_drawCell (cx cy r : Nat) (b : Byte) (p : Framebuffer × Bool) (c : Nat) (k : Fin Config.cells) :
    (drawCell cx cy r b p c).1[k] = if cellIndex cx cy r c = k then p.1[k] ^^ spriteBit b c else p.1[k] := by
  simp only [drawCell, Fin.getElem_fin, Vector.getElem_set]
  by_cases h : cellIndex cx cy r c = k
  · simp [h]
  · rw [if_neg h, if_neg fun e => h (Fin.ext e)]

theorem drawCells_spec (cx cy r : Nat) (b : Byte) (hr : r < 32) (cs : List Nat) (hcs : ∀ c ∈ cs, c < 8)
    (hnd : cs.Nodup) (p : Framebuffer × Bool) :
    (∀ k, (cs.foldl (drawCell cx cy r b) p).1[k] = true ↔ ¬ (p.1[k] = true ↔ rowCovers cx cy r b k cs)) ∧
      ((cs.foldl (drawCell cx cy r b) p).2 = true ↔
        p.2 = true ∨ ∃ c ∈ cs, spriteBit b c = true ∧ p.1[cellIndex cx cy r c] = true) := by
  induction cs generalizing p with
  | nil => simp [rowCovers]
  | cons c cs ih =>
    obtain ⟨hc, hnd⟩ := List.nodup_cons.mp hnd
    obtain ⟨ih1, ih2⟩ := ih (fun d hd => hcs d (List.mem_cons_of_mem _ hd)) hnd (drawCell cx cy r b p c)
    have hc8 : c < 8 := hcs c List.mem_cons_self
    have hne : ∀ d ∈ cs, cellIndex cx cy r d ≠ cellIndex cx cy r c := by
      intro d hd he
      have := (cellIndex_injective hr hr (hcs d (List.mem_cons_of_mem _ hd)) hc8 he).2
      exact hc (this ▸ hd)
    rw [List.foldl_cons]
    constructor
    · intro k
      rw [ih1 k, getElem_drawCell]
      by_cases hk : cellIndex cx cy r c = k
      · have h1 : ¬ rowCovers cx cy r b k cs := by
          rintro ⟨d, hd, he, -⟩
          exact hne d hd (he.trans hk.symm)
        have h2 : rowCovers cx cy r b k (c :: cs) ↔ spriteBit b c = true := by
          simp only [rowCovers, List.exists_mem_cons_iff] at h1 ⊢
          simp only [hk, true_and]
          exact ⟨fun h => h.resolve_right h1, Or.inl⟩
        rw [if_pos hk, h2]
        cases p.1[k] <;> cases spriteBit b c <;> simp [h1]
      · have h2 : rowCovers cx cy r b k (c :: cs) ↔ rowCovers cx cy r b k cs := by
          simp only [rowCovers, List.exists_mem_cons_iff, hk, false_and, false_or]
        rw [if_neg hk, h2]
    · rw [ih2]
      have h3 : ∀ d ∈ cs, (drawCell cx cy r b p c).1[cellIndex cx cy r d] = p.1[cellIndex cx cy r d] := by
        intro d hd
        rw [getElem_drawCell, if_neg (fun e => hne d hd e.symm)]
      simp only [drawCell, Bool.or_eq_true, Bool.and_eq_true, List.exists_mem_cons_iff, or_assoc]
      refine or_congr_right (or_congr_right ?_)
      constructor
      · rintro ⟨d, hd, hb, hf⟩
        exact ⟨d, hd, hb, (h3 d hd) ▸ hf⟩
      · rintro ⟨d, hd, hb, hf⟩
        exact ⟨d, hd, hb, (h3 d hd).symm ▸ hf⟩

/-- The sprite bytes, drawn as rows `r`, `r + 1`, ..., have a 1 bit on cell `k` (R161, R162). -/
def spriteCovers (cx cy r : Nat) (bs : List Byte) (k : Fin Config.cells) : Prop :=
  ∃ j, ∃ hj : j < bs.length, ∃ c, c < 8 ∧ cellIndex cx cy (r + j) c = k ∧ spriteBit bs[j] c = true

/-- Some 1 bit of the sprite falls on a cell that is set (R163). -/
def spriteHits (cx cy r : Nat) (bs : List Byte) (fb : Framebuffer) : Prop :=
  ∃ j, ∃ hj : j < bs.length, ∃ c, c < 8 ∧ spriteBit bs[j] c = true ∧ fb[cellIndex cx cy (r + j) c] = true

theorem spriteCovers_cons (cx cy r : Nat) (b : Byte) (bs : List Byte) (k : Fin Config.cells) :
    spriteCovers cx cy r (b :: bs) k ↔ rowCovers cx cy r b k (List.range 8) ∨ spriteCovers cx cy (r + 1) bs k := by
  constructor
  · rintro ⟨j, hj, c, hc, he, hb⟩
    cases j with
    | zero => exact Or.inl ⟨c, List.mem_range.mpr hc, he, hb⟩
    | succ j => exact Or.inr ⟨j, by simpa using hj, c, hc, by rw [show r + 1 + j = r + (j + 1) by omega]; exact he, hb⟩
  · rintro (⟨c, hc, he, hb⟩ | ⟨j, hj, c, hc, he, hb⟩)
    · exact ⟨0, by simp, c, List.mem_range.mp hc, he, hb⟩
    · exact ⟨j + 1, by simpa using hj, c, hc, by rw [show r + (j + 1) = r + 1 + j by omega]; exact he, hb⟩

/-- Everything that drawing does: each cell is XORed with the sprite bit that falls on it, and the flag tells whether
a 1 bit fell on a set cell (R161 to R163). -/
theorem drawRows_spec (cx cy r : Nat) (bs : List Byte) (hr : r + bs.length ≤ 32) (p : Framebuffer × Bool) :
    (∀ k, (drawRows cx cy r bs p).1[k] = true ↔ ¬ (p.1[k] = true ↔ spriteCovers cx cy r bs k)) ∧
      ((drawRows cx cy r bs p).2 = true ↔ p.2 = true ∨ spriteHits cx cy r bs p.1) := by
  induction bs generalizing r p with
  | nil => simp [drawRows, spriteCovers, spriteHits]
  | cons b bs ih =>
    simp only [List.length_cons] at hr
    obtain ⟨row1, row2⟩ := drawCells_spec cx cy r b (by omega) (List.range 8) (fun c hc => List.mem_range.mp hc)
      List.nodup_range p
    obtain ⟨ih1, ih2⟩ := ih (r + 1) (by omega) (drawRow cx cy r b p)
    have hdisj : ∀ k, rowCovers cx cy r b k (List.range 8) → ¬ spriteCovers cx cy (r + 1) bs k := by
      rintro k ⟨c, hc, he, -⟩ ⟨j, hj, c', hc', he', -⟩
      have := (cellIndex_injective (by omega) (by omega) (List.mem_range.mp hc) hc' (he.trans he'.symm)).1
      omega
    rw [drawRows]
    constructor
    · intro k
      rw [ih1 k, show (drawRow cx cy r b p).1[k] = true ↔ _ from row1 k, spriteCovers_cons]
      have := hdisj k
      tauto
    · rw [ih2, show (drawRow cx cy r b p).2 = true ↔ _ from row2, or_assoc]
      refine or_congr_right ?_
      have same : ∀ j, j < bs.length → ∀ c, c < 8 →
          ((drawRow cx cy r b p).1[cellIndex cx cy (r + 1 + j) c] = true ↔
            p.1[cellIndex cx cy (r + 1 + j) c] = true) := by
        intro j hj c hc
        rw [show (drawRow cx cy r b p).1[cellIndex cx cy (r + 1 + j) c] = true ↔ _ from row1 _]
        have hno : ¬ rowCovers cx cy r b (cellIndex cx cy (r + 1 + j) c) (List.range 8) := by
          rintro ⟨c', hc', he, -⟩
          have := (cellIndex_injective (by omega) (by omega) (List.mem_range.mp hc') hc he).1
          omega
        simp [hno]
      constructor
      · rintro (⟨c, hc, hb, hf⟩ | ⟨j, hj, c, hc, hb, hf⟩)
        · exact ⟨0, by simp, c, List.mem_range.mp hc, hb, hf⟩
        · exact ⟨j + 1, by simpa using hj, c, hc, hb, by
            simp only [show r + (j + 1) = r + 1 + j by omega]; exact (same j hj c hc).mp hf⟩
      · rintro ⟨j, hj, c, hc, hb, hf⟩
        cases j with
        | zero => exact Or.inl ⟨c, List.mem_range.mpr hc, hb, hf⟩
        | succ j =>
          have hj : j < bs.length := by simpa using hj
          simp only [show r + (j + 1) = r + 1 + j by omega] at hf
          exact Or.inr ⟨j, hj, c, hc, hb, (same j hj c hc).mpr hf⟩

end Sys2Proof.Machine
end

