-- ==== Sys2Proof/Laws/Exec.lean ====
section
/-! SUPPORT. What every instruction can do, said once: it raises a fatal condition and changes nothing else, or it leaves HALT and everything that only the cycle and the host write as it was. -/

namespace Sys2Proof.Machine

/-! ## The instructions that can raise -/

theorem exec_ret_cases {s t : State} (h : exec .ret s = .next t) :
    (∃ _ : s.sp.val ≠ 0, t = { s with
      stack := s.stack.set (s.sp.val - 1) 0 (by omega), sp := ⟨s.sp.val - 1, by omega⟩
      pc := s.stack[s.sp.val - 1]'(by omega), jump := true }) ∨
      (s.sp.val = 0 ∧ t = s.raise .stackUnderflow) :=
  State.popThen_cases (k := fun t s' => s'.jumpTo t) h

theorem exec_call_cases {nnn : Word} {s t : State} (h : exec (.call nnn) s = .next t) :
    (∃ _ : s.sp.val < 16, t = { s with
      stack := s.stack.set s.sp.val (s.pc + 2), sp := ⟨s.sp.val + 1, by omega⟩, pc := nnn, jump := true }) ∨
      (s.sp.val = 16 ∧ t = s.raise .stackOverflow) :=
  State.pushThen_cases (k := fun s' => s'.jumpTo nnn) h

theorem exec_drw_cases {x y : Reg} {n : Nat} {s t : State} (h : exec (.drw x y n) s = .next t) :
    ((n = 0 ∨ s.i.toNat + n ≤ Config.memSize) ∧ t = { s.setV vF (boolByte
        (drawRows (s.getV x).toNat (s.getV y).toNat 0 (s.readFromI n) (s.fb, false)).2) with
      fb := (drawRows (s.getV x).toNat (s.getV y).toNat 0 (s.readFromI n) (s.fb, false)).1, redraw := true }) ∨
      ((0 < n ∧ Config.memSize < s.i.toNat + n) ∧ t = s.raise (.memOutOfRange (max s.i.toNat Config.memSize))) :=
  State.checkedAccess_cases h

theorem exec_skp_cases {x : Reg} {s t : State} (h : exec (.skp x) s = .next t) :
    (∃ _ : (s.getV x).toNat < 16, t = s.skipIf s.key[(s.getV x).toNat]) ∨
      (16 ≤ (s.getV x).toNat ∧ t = s.raise (.keyIndexOutOfRange (s.getV x))) :=
  State.withKey_cases (k := fun pressed => s.skipIf pressed) h

theorem exec_sknp_cases {x : Reg} {s t : State} (h : exec (.sknp x) s = .next t) :
    (∃ _ : (s.getV x).toNat < 16, t = s.skipIf (!s.key[(s.getV x).toNat])) ∨
      (16 ≤ (s.getV x).toNat ∧ t = s.raise (.keyIndexOutOfRange (s.getV x))) :=
  State.withKey_cases (k := fun pressed => s.skipIf (!pressed)) h

theorem exec_addIVx_cases {x : Reg} {s t : State} (h : exec (.addIVx x) s = .next t) :
    (s.i.toNat + (s.indexAddend Config.vfWriteOrder x).toNat ≤ 0xFFFF ∧
      t = { s.setV vF (boolByte (indexFlag s.i (s.getV x))) with
        i := BitVec.ofNat 16 (s.i.toNat + (s.indexAddend Config.vfWriteOrder x).toNat) }) ∨
      (0xFFFF < s.i.toNat + (s.indexAddend Config.vfWriteOrder x).toNat ∧
        t = s.raise (.indexOverflow (s.i.toNat + (s.indexAddend Config.vfWriteOrder x).toNat))) := by
  rw [← State.indexAddend_orderFor]
  exact State.addIndex_cases h

theorem exec_ldBVx_cases {x : Reg} {s t : State} (h : exec (.ldBVx x) s = .next t) :
    (s.i.toNat + 3 ≤ Config.memSize ∧ t = s.writeFromI (decimalDigits (s.getV x))) ∨
      (Config.memSize < s.i.toNat + 3 ∧ t = s.raise (.memOutOfRange (max s.i.toNat Config.memSize))) := by
  rcases State.checkedAccess_cases h with ⟨h1, h2⟩ | ⟨h1, h2⟩
  · exact Or.inl ⟨by omega, h2⟩
  · exact Or.inr ⟨h1.2, h2⟩

theorem exec_ldMemVx_cases {x : Reg} {s t : State} (h : exec (.ldMemVx x) s = .next t) :
    (s.i.toNat + (x.val + 1) ≤ Config.memSize ∧ t = { s.writeFromI (s.v.toList.take (x.val + 1)) with
      i := s.i + BitVec.ofNat 16 (x.val + 1) }) ∨
      (Config.memSize < s.i.toNat + (x.val + 1) ∧ t = s.raise (.memOutOfRange (max s.i.toNat Config.memSize))) := by
  rcases State.checkedAccess_cases h with ⟨h1, h2⟩ | ⟨h1, h2⟩
  · exact Or.inl ⟨by omega, h2⟩
  · exact Or.inr ⟨h1.2, h2⟩

theorem exec_ldVxMem_cases {x : Reg} {s t : State} (h : exec (.ldVxMem x) s = .next t) :
    (s.i.toNat + (x.val + 1) ≤ Config.memSize ∧ t = { s with
      v := Vector.ofFn (fun z : Reg => if z ≤ x then s.mem.read (s.dataAddr z.val) else s.getV z)
      i := s.i + BitVec.ofNat 16 (x.val + 1) }) ∨
      (Config.memSize < s.i.toNat + (x.val + 1) ∧ t = s.raise (.memOutOfRange (max s.i.toNat Config.memSize))) := by
  rcases State.checkedAccess_cases h with ⟨h1, h2⟩ | ⟨h1, h2⟩
  · exact Or.inl ⟨by omega, h2⟩
  · exact Or.inr ⟨h1.2, h2⟩

theorem exec_ldVxK_cases {x : Reg} {s t : State} (h : exec (.ldVxK x) s = .next t) :
    (s.kflag = true ∧ t = { s.setV x (BitVec.ofNat 8 s.klatch.val) with kflag := false }) ∨
      (s.kflag = false ∧ t = { s with await := true, jump := true }) := by
  simp only [exec, execLdVxK] at h
  split_ifs at h with hk <;> cases h
  · exact Or.inl ⟨hk, rfl⟩
  · exact Or.inr ⟨by simpa using hk, rfl⟩

/-! ## All instructions -/

/-- What no instruction that completes writes: HALT, REFUSED, the opcode register, the events, KEY and KLATCH; and
KFLAG is at most cleared (R48 to R50, R53 to R55). -/
structure CycleFieldsKept (s t : State) : Prop where
  halt : t.halt = s.halt
  refused : t.refused = s.refused
  op : t.op = s.op
  events : t.events = s.events
  key : t.key = s.key
  klatch : t.klatch = s.klatch
  kflag : t.kflag = true → s.kflag = true

theorem CycleFieldsKept.rfl (s : State) : CycleFieldsKept s s := ⟨by rfl, by rfl, by rfl, by rfl, by rfl, by rfl, id⟩

theorem CycleFieldsKept.skipIf (s : State) (c : Bool) : CycleFieldsKept s (s.skipIf c) := by
  constructor <;> simp

theorem CycleFieldsKept.flagged (s : State) (o : VfWriteOrder) (x y : Reg) (flag : Byte → Byte → Bool)
    (result : Byte → Byte → Byte) : CycleFieldsKept s (s.flagged o x y flag result) := by
  rw [s.flagged_eq]
  exact ⟨by rfl, by rfl, by rfl, by rfl, by rfl, by rfl, id⟩

/-- Everything an instruction can do to the fields of the cycle: it raises one fatal condition and changes nothing
else, or it completes and leaves them alone (R302, R305). -/
theorem exec_cases {i : Instr} {s t : State} (h : exec i s = .next t) :
    (∃ c, t = s.raise c) ∨ CycleFieldsKept s t := by
  cases i with
  | ret =>
    rcases exec_ret_cases h with ⟨_, rfl⟩ | ⟨_, rfl⟩
    · exact Or.inr ⟨rfl, rfl, rfl, rfl, rfl, rfl, id⟩
    · exact Or.inl ⟨_, rfl⟩
  | call nnn =>
    rcases exec_call_cases h with ⟨_, rfl⟩ | ⟨_, rfl⟩
    · exact Or.inr ⟨rfl, rfl, rfl, rfl, rfl, rfl, id⟩
    · exact Or.inl ⟨_, rfl⟩
  | drw x y n =>
    rcases exec_drw_cases h with ⟨_, rfl⟩ | ⟨_, rfl⟩
    · exact Or.inr ⟨rfl, rfl, rfl, rfl, rfl, rfl, id⟩
    · exact Or.inl ⟨_, rfl⟩
  | skp x =>
    rcases exec_skp_cases h with ⟨_, rfl⟩ | ⟨_, rfl⟩
    · exact Or.inr (CycleFieldsKept.skipIf s _)
    · exact Or.inl ⟨_, rfl⟩
  | sknp x =>
    rcases exec_sknp_cases h with ⟨_, rfl⟩ | ⟨_, rfl⟩
    · exact Or.inr (CycleFieldsKept.skipIf s _)
    · exact Or.inl ⟨_, rfl⟩
  | addIVx x =>
    rcases exec_addIVx_cases h with ⟨_, rfl⟩ | ⟨_, rfl⟩
    · exact Or.inr ⟨rfl, rfl, rfl, rfl, rfl, rfl, id⟩
    · exact Or.inl ⟨_, rfl⟩
  | ldBVx x =>
    rcases exec_ldBVx_cases h with ⟨_, rfl⟩ | ⟨_, rfl⟩
    · exact Or.inr ⟨rfl, rfl, rfl, rfl, rfl, rfl, id⟩
    · exact Or.inl ⟨_, rfl⟩
  | ldMemVx x =>
    rcases exec_ldMemVx_cases h with ⟨_, rfl⟩ | ⟨_, rfl⟩
    · exact Or.inr ⟨rfl, rfl, rfl, rfl, rfl, rfl, id⟩
    · exact Or.inl ⟨_, rfl⟩
  | ldVxMem x =>
    rcases exec_ldVxMem_cases h with ⟨_, rfl⟩ | ⟨_, rfl⟩
    · exact Or.inr ⟨rfl, rfl, rfl, rfl, rfl, rfl, id⟩
    · exact Or.inl ⟨_, rfl⟩
  | ldVxK x =>
    rcases exec_ldVxK_cases h with ⟨_, rfl⟩ | ⟨_, rfl⟩
    · exact Or.inr ⟨rfl, rfl, rfl, rfl, rfl, rfl, by simp⟩
    · exact Or.inr ⟨rfl, rfl, rfl, rfl, rfl, rfl, id⟩
  | seImm x nn => cases h; exact Or.inr (CycleFieldsKept.skipIf s _)
  | sneImm x nn => cases h; exact Or.inr (CycleFieldsKept.skipIf s _)
  | seReg x y => cases h; exact Or.inr (CycleFieldsKept.skipIf s _)
  | sneReg x y => cases h; exact Or.inr (CycleFieldsKept.skipIf s _)
  | addReg x y => cases h; exact Or.inr (CycleFieldsKept.flagged s _ _ _ _ _)
  | sub x y => cases h; exact Or.inr (CycleFieldsKept.flagged s _ _ _ _ _)
  | shr x => cases h; exact Or.inr (CycleFieldsKept.flagged s _ _ _ _ _)
  | subn x y => cases h; exact Or.inr (CycleFieldsKept.flagged s _ _ _ _ _)
  | shl x => cases h; exact Or.inr (CycleFieldsKept.flagged s _ _ _ _ _)
  | _ => cases h; exact Or.inr ⟨rfl, rfl, rfl, rfl, rfl, rfl, id⟩

/-- An instruction that starts with HALT clear leaves it clear, or raises and changes nothing else (R302). -/
theorem exec_halt {i : Instr} {s t : State} (h : exec i s = .next t) (hs : s.halt = none) :
    (∃ c, t = s.raise c) ∨ t.halt = none := by
  rcases exec_cases h with hc | hk
  · exact Or.inl hc
  · exact Or.inr (hk.halt.trans hs)

end Sys2Proof.Machine
end

