-- ==== Sys2Proof/Laws/PerInstr.lean ====
section
/-! SUPPORT. Facts about every instruction as syntax, one lemma per constructor. -/

namespace Sys2Proof

/-! ## The selecting bits of the four formats (R107) -/

theorem encodeFA_group (g : BitVec 4) (nnn : Word) : encodeFA g nnn &&& 0xF000#16 = g ++ 0#12 := by
  change (g ++ nnn.setWidth 12) &&& (0xF#4 ++ 0x000#12) = g ++ 0#12
  rw [BitVec.and_append, show g &&& 0xF#4 = g from BitVec.and_allOnes, BitVec.and_zero]

theorem encodeFI_group (g : BitVec 4) (x : Reg) (nn : Byte) : encodeFI g x nn &&& 0xF000#16 = (g ++ 0#4) ++ 0#8 := by
  change ((g ++ (BitVec.ofFin x : BitVec 4)) ++ nn) &&& ((0xF#4 ++ 0x0#4) ++ 0x00#8) = (g ++ 0#4) ++ 0#8
  rw [BitVec.and_append, BitVec.and_append, show g &&& 0xF#4 = g from BitVec.and_allOnes, BitVec.and_zero,
    BitVec.and_zero]

theorem encodeFS_key (g : BitVec 4) (x : Reg) (sub : Byte) :
    encodeFS g x sub &&& 0xF0FF#16 = (g ++ 0#4) ++ sub := by
  change ((g ++ (BitVec.ofFin x : BitVec 4)) ++ sub) &&& ((0xF#4 ++ 0x0#4) ++ 0xFF#8) = (g ++ 0#4) ++ sub
  rw [BitVec.and_append, BitVec.and_append, show g &&& 0xF#4 = g from BitVec.and_allOnes, BitVec.and_zero,
    show sub &&& 0xFF#8 = sub from BitVec.and_allOnes]

theorem encodeFR_group (g : BitVec 4) (x y : Reg) (n : BitVec 4) : encodeFR g x y n &&& 0xF000#16 = ((g ++ 0#4) ++ 0#4) ++ 0#4 := by
  change (((g ++ (BitVec.ofFin x : BitVec 4)) ++ (BitVec.ofFin y : BitVec 4)) ++ n) &&&
    (((0xF#4 ++ 0x0#4) ++ 0x0#4) ++ 0x0#4) = ((g ++ 0#4) ++ 0#4) ++ 0#4
  rw [BitVec.and_append, BitVec.and_append, BitVec.and_append, show g &&& 0xF#4 = g from BitVec.and_allOnes,
    BitVec.and_zero, BitVec.and_zero, BitVec.and_zero]

theorem encodeFR_key (g : BitVec 4) (x y : Reg) (n : BitVec 4) :
    encodeFR g x y n &&& 0xF00F#16 = ((g ++ 0#4) ++ 0#4) ++ n := by
  change (((g ++ (BitVec.ofFin x : BitVec 4)) ++ (BitVec.ofFin y : BitVec 4)) ++ n) &&&
    (((0xF#4 ++ 0x0#4) ++ 0x0#4) ++ 0xF#4) = ((g ++ 0#4) ++ 0#4) ++ n
  rw [BitVec.and_append, BitVec.and_append, BitVec.and_append, show g &&& 0xF#4 = g from BitVec.and_allOnes,
    BitVec.and_zero, BitVec.and_zero, show n &&& 0xF#4 = n from BitVec.and_allOnes]

end Sys2Proof

/-- The word that encodes the instruction matches the instruction's own row of the opcode map (R108). -/
def Sys2Proof.Laws.EncodesToRow.Statement (i : Sys2Proof.Instr) : Prop := i.row.matches (Sys2Proof.encode i) = true

open Sys2Proof

theorem Sys2Proof.Laws.EncodesToRow.cls :
    Sys2Proof.Laws.EncodesToRow.Statement .cls := rfl

theorem Sys2Proof.Laws.EncodesToRow.ret :
    Sys2Proof.Laws.EncodesToRow.Statement .ret := rfl

theorem Sys2Proof.Laws.EncodesToRow.jp (nnn : Word) :
    Sys2Proof.Laws.EncodesToRow.Statement (.jp nnn) := 
  beq_iff_eq.mpr (encodeFA_group _ _)

theorem Sys2Proof.Laws.EncodesToRow.call (nnn : Word) :
    Sys2Proof.Laws.EncodesToRow.Statement (.call nnn) := 
  beq_iff_eq.mpr (encodeFA_group _ _)

theorem Sys2Proof.Laws.EncodesToRow.seImm (x : Reg) (nn : Byte) :
    Sys2Proof.Laws.EncodesToRow.Statement (.seImm x nn) := 
  beq_iff_eq.mpr (encodeFI_group _ _ _)

theorem Sys2Proof.Laws.EncodesToRow.sneImm (x : Reg) (nn : Byte) :
    Sys2Proof.Laws.EncodesToRow.Statement (.sneImm x nn) := 
  beq_iff_eq.mpr (encodeFI_group _ _ _)

theorem Sys2Proof.Laws.EncodesToRow.seReg (x : Reg) (y : Reg) :
    Sys2Proof.Laws.EncodesToRow.Statement (.seReg x y) := 
  beq_iff_eq.mpr (encodeFR_group _ _ _ _)

theorem Sys2Proof.Laws.EncodesToRow.ldImm (x : Reg) (nn : Byte) :
    Sys2Proof.Laws.EncodesToRow.Statement (.ldImm x nn) := 
  beq_iff_eq.mpr (encodeFI_group _ _ _)

theorem Sys2Proof.Laws.EncodesToRow.addImm (x : Reg) (nn : Byte) :
    Sys2Proof.Laws.EncodesToRow.Statement (.addImm x nn) := 
  beq_iff_eq.mpr (encodeFI_group _ _ _)

theorem Sys2Proof.Laws.EncodesToRow.ldReg (x : Reg) (y : Reg) :
    Sys2Proof.Laws.EncodesToRow.Statement (.ldReg x y) := 
  beq_iff_eq.mpr (encodeFR_key _ _ _ _)

theorem Sys2Proof.Laws.EncodesToRow.or (x : Reg) (y : Reg) :
    Sys2Proof.Laws.EncodesToRow.Statement (.or x y) := 
  beq_iff_eq.mpr (encodeFR_key _ _ _ _)

theorem Sys2Proof.Laws.EncodesToRow.and (x : Reg) (y : Reg) :
    Sys2Proof.Laws.EncodesToRow.Statement (.and x y) := 
  beq_iff_eq.mpr (encodeFR_key _ _ _ _)

theorem Sys2Proof.Laws.EncodesToRow.xor (x : Reg) (y : Reg) :
    Sys2Proof.Laws.EncodesToRow.Statement (.xor x y) := 
  beq_iff_eq.mpr (encodeFR_key _ _ _ _)

theorem Sys2Proof.Laws.EncodesToRow.addReg (x : Reg) (y : Reg) :
    Sys2Proof.Laws.EncodesToRow.Statement (.addReg x y) := 
  beq_iff_eq.mpr (encodeFR_key _ _ _ _)

theorem Sys2Proof.Laws.EncodesToRow.sub (x : Reg) (y : Reg) :
    Sys2Proof.Laws.EncodesToRow.Statement (.sub x y) := 
  beq_iff_eq.mpr (encodeFR_key _ _ _ _)

theorem Sys2Proof.Laws.EncodesToRow.shr (x : Reg) :
    Sys2Proof.Laws.EncodesToRow.Statement (.shr x) := 
  beq_iff_eq.mpr (encodeFR_key _ _ _ _)

theorem Sys2Proof.Laws.EncodesToRow.subn (x : Reg) (y : Reg) :
    Sys2Proof.Laws.EncodesToRow.Statement (.subn x y) := 
  beq_iff_eq.mpr (encodeFR_key _ _ _ _)

theorem Sys2Proof.Laws.EncodesToRow.shl (x : Reg) :
    Sys2Proof.Laws.EncodesToRow.Statement (.shl x) := 
  beq_iff_eq.mpr (encodeFR_key _ _ _ _)

theorem Sys2Proof.Laws.EncodesToRow.sneReg (x : Reg) (y : Reg) :
    Sys2Proof.Laws.EncodesToRow.Statement (.sneReg x y) := 
  beq_iff_eq.mpr (encodeFR_group _ _ _ _)

theorem Sys2Proof.Laws.EncodesToRow.ldI (nnn : Word) :
    Sys2Proof.Laws.EncodesToRow.Statement (.ldI nnn) := 
  beq_iff_eq.mpr (encodeFA_group _ _)

theorem Sys2Proof.Laws.EncodesToRow.jpV0 (nnn : Word) :
    Sys2Proof.Laws.EncodesToRow.Statement (.jpV0 nnn) := 
  beq_iff_eq.mpr (encodeFA_group _ _)

theorem Sys2Proof.Laws.EncodesToRow.rnd (x : Reg) (nn : Byte) :
    Sys2Proof.Laws.EncodesToRow.Statement (.rnd x nn) := 
  beq_iff_eq.mpr (encodeFI_group _ _ _)

theorem Sys2Proof.Laws.EncodesToRow.drw (x : Reg) (y : Reg) (n : Nat) :
    Sys2Proof.Laws.EncodesToRow.Statement (.drw x y n) := 
  beq_iff_eq.mpr (encodeFR_group _ _ _ _)

theorem Sys2Proof.Laws.EncodesToRow.skp (x : Reg) :
    Sys2Proof.Laws.EncodesToRow.Statement (.skp x) := 
  beq_iff_eq.mpr (encodeFS_key _ _ _)

theorem Sys2Proof.Laws.EncodesToRow.sknp (x : Reg) :
    Sys2Proof.Laws.EncodesToRow.Statement (.sknp x) := 
  beq_iff_eq.mpr (encodeFS_key _ _ _)

theorem Sys2Proof.Laws.EncodesToRow.ldVxDt (x : Reg) :
    Sys2Proof.Laws.EncodesToRow.Statement (.ldVxDt x) := 
  beq_iff_eq.mpr (encodeFS_key _ _ _)

theorem Sys2Proof.Laws.EncodesToRow.ldVxK (x : Reg) :
    Sys2Proof.Laws.EncodesToRow.Statement (.ldVxK x) := 
  beq_iff_eq.mpr (encodeFS_key _ _ _)

theorem Sys2Proof.Laws.EncodesToRow.ldDtVx (x : Reg) :
    Sys2Proof.Laws.EncodesToRow.Statement (.ldDtVx x) := 
  beq_iff_eq.mpr (encodeFS_key _ _ _)

theorem Sys2Proof.Laws.EncodesToRow.ldStVx (x : Reg) :
    Sys2Proof.Laws.EncodesToRow.Statement (.ldStVx x) := 
  beq_iff_eq.mpr (encodeFS_key _ _ _)

theorem Sys2Proof.Laws.EncodesToRow.addIVx (x : Reg) :
    Sys2Proof.Laws.EncodesToRow.Statement (.addIVx x) := 
  beq_iff_eq.mpr (encodeFS_key _ _ _)

theorem Sys2Proof.Laws.EncodesToRow.ldFVx (x : Reg) :
    Sys2Proof.Laws.EncodesToRow.Statement (.ldFVx x) := 
  beq_iff_eq.mpr (encodeFS_key _ _ _)

theorem Sys2Proof.Laws.EncodesToRow.ldBVx (x : Reg) :
    Sys2Proof.Laws.EncodesToRow.Statement (.ldBVx x) := 
  beq_iff_eq.mpr (encodeFS_key _ _ _)

theorem Sys2Proof.Laws.EncodesToRow.ldMemVx (x : Reg) :
    Sys2Proof.Laws.EncodesToRow.Statement (.ldMemVx x) := 
  beq_iff_eq.mpr (encodeFS_key _ _ _)

theorem Sys2Proof.Laws.EncodesToRow.ldVxMem (x : Reg) :
    Sys2Proof.Laws.EncodesToRow.Statement (.ldVxMem x) := 
  beq_iff_eq.mpr (encodeFS_key _ _ _)
end

