-- ==== Sys2Proof/Laws/Step.lean ====
section
/-! SUPPORT. What a tick can do, said once: every instruction answers a next state, and so does every tick. -/

namespace Sys2Proof.Machine

theorem State.checkedAccess_isNext (s : State) (n : Nat) (t : State) : ∃ u, s.checkedAccess n t = .next u := by
  unfold State.checkedAccess
  split <;> exact ⟨_, rfl⟩

theorem State.pushThen_isNext (s : State) (t : Word) (k : State → State) : ∃ u, s.pushThen t k = .next u := by
  unfold State.pushThen
  split <;> exact ⟨_, rfl⟩

theorem State.popThen_isNext (s : State) (k : Word → State → State) : ∃ u, s.popThen k = .next u := by
  unfold State.popThen
  split <;> exact ⟨_, rfl⟩

theorem State.withKey_isNext (s : State) (x : Reg) (k : Bool → State) : ∃ u, s.withKey x k = .next u := by
  unfold State.withKey
  split <;> exact ⟨_, rfl⟩

theorem State.addIndex_isNext (s : State) (o : VfWriteOrder) (x : Reg) : ∃ u, s.addIndex o x = .next u := by
  simp only [State.addIndex]
  split_ifs <;> exact ⟨_, rfl⟩

/-- Every instruction answers a next state in every state: its own effect, or the record of a fatal condition. -/
theorem exec_isNext (i : Instr) (s : State) : ∃ t, exec i s = .next t := by
  cases i with
  | ret => exact s.popThen_isNext (fun t s' => s'.jumpTo t)
  | call nnn => exact s.pushThen_isNext (s.pc + 2) (fun s' => s'.jumpTo nnn)
  | drw x y n => exact s.checkedAccess_isNext _ _
  | skp x => exact s.withKey_isNext x (fun pressed => s.skipIf pressed)
  | sknp x => exact s.withKey_isNext x (fun pressed => s.skipIf (!pressed))
  | addIVx x => exact s.addIndex_isNext _ _
  | ldBVx x => exact s.checkedAccess_isNext _ _
  | ldMemVx x => exact s.checkedAccess_isNext _ _
  | ldVxMem x => exact s.checkedAccess_isNext _ _
  | ldVxK x =>
    cases h : s.kflag <;> exact ⟨_, by simp only [exec, execLdVxK, h]; rfl⟩
  | _ => exact ⟨_, rfl⟩

/-- Steps 4 to 7 in one update: everything they do (R144 to R147). -/
theorem State.finishTick_eq (s : State) :
    s.finishTick = { s with
      pc := if s.jump then s.pc else s.pc + 2
      dt := if s.dt = 0 then 0 else s.dt - 1
      st := if s.st = 0 then 0 else s.st - 1
      events := if s.st = 1 then s.events ++ [.soundStop] else s.events
      kflag := false
      op := none } := by
  ext1 <;> simp [State.finishTick]

/-- A tick of a block that does not run (R152, R304, R306). -/
theorem step_idle {s : State} (h : s.running = false) : step s = .next s.idleTick := by
  rw [step, if_neg (by simp [h])]

@[simp] theorem State.fetch_beginTick (s : State) : s.beginTick.fetch = s.fetch := rfl

/-- A tick whose fetch is out of range (R141, R150). -/
theorem step_fetchOutOfRange {s : State} (h : s.running = true) (hf : s.fetch = none) :
    step s = .next (s.beginTick.raise .fetchOutOfRange) := by
  rw [step, if_pos h, State.fetch_beginTick, hf]

/-- A tick that fetches the word `w` (R143). -/
theorem step_fetched {s : State} {w : Word} (h : s.running = true) (hf : s.fetch = some w) :
    step s = runWord w s.beginTick := by
  rw [step, if_pos h, State.fetch_beginTick, hf]

/-- The word decodes to an instruction whose execution answers `t`. -/
theorem runWord_instr {s t : State} {w : Word} {i : Instr} (hd : decode w = .instr i)
    (he : exec i { s with op := some w } = .next t) : runWord w s = .next t.afterExec := by
  simp only [runWord, hd, he]

theorem runWord_unknown {s : State} {w : Word} (hd : decode w = .unknown) :
    runWord w s = .next (s.unknownWord w) := by
  simp only [runWord, hd]

theorem runWord_refused {s : State} {w : Word} (hd : decode w = .refused) :
    runWord w s = .next (s.refuseWord w) := by
  simp only [runWord, hd]

/-- Everything a tick can do. -/
theorem step_cases {s t : State} (h : step s = .next t) :
    (s.running = false ∧ t = s.idleTick) ∨
      (s.running = true ∧ s.fetch = none ∧ t = s.beginTick.raise .fetchOutOfRange) ∨
      ∃ w, s.running = true ∧ s.fetch = some w ∧
        ((∃ i u, decode w = .instr i ∧ exec i { s.beginTick with op := some w } = .next u ∧ t = u.afterExec) ∨
          (decode w = .unknown ∧ t = s.beginTick.unknownWord w) ∨
          (decode w = .refused ∧ t = s.beginTick.refuseWord w)) := by
  by_cases hr : s.running = true
  · cases hf : s.fetch with
    | none =>
      rw [step_fetchOutOfRange hr hf, Host.Outcome.next.injEq] at h
      exact Or.inr (Or.inl ⟨hr, rfl, h.symm⟩)
    | some w =>
      rw [step_fetched hr hf] at h
      refine Or.inr (Or.inr ⟨w, hr, rfl, ?_⟩)
      cases hd : decode w with
      | instr i =>
        obtain ⟨u, hu⟩ := exec_isNext i { s.beginTick with op := some w }
        rw [runWord_instr hd hu, Host.Outcome.next.injEq] at h
        exact Or.inl ⟨i, u, rfl, hu, h.symm⟩
      | unknown =>
        rw [runWord_unknown hd, Host.Outcome.next.injEq] at h
        exact Or.inr (Or.inl ⟨rfl, h.symm⟩)
      | refused =>
        rw [runWord_refused hd, Host.Outcome.next.injEq] at h
        exact Or.inr (Or.inr ⟨rfl, h.symm⟩)
  · have hr : s.running = false := by simpa using hr
    rw [step_idle hr, Host.Outcome.next.injEq] at h
    exact Or.inl ⟨hr, h.symm⟩

/-- Every tick answers a next state. -/
theorem step_isNext (s : State) : ∃ t, step s = .next t := by
  by_cases hr : s.running = true
  · cases hf : s.fetch with
    | none => exact ⟨_, step_fetchOutOfRange hr hf⟩
    | some w =>
      rw [step_fetched hr hf]
      cases hd : decode w with
      | instr i =>
        obtain ⟨u, hu⟩ := exec_isNext i { s.beginTick with op := some w }
        exact ⟨_, runWord_instr hd hu⟩
      | unknown => exact ⟨_, runWord_unknown hd⟩
      | refused => exact ⟨_, runWord_refused hd⟩
  · exact ⟨_, step_idle (by simpa using hr)⟩

/-- The block runs exactly in the sound states. -/
theorem State.running_iff (s : State) : s.running = true ↔ s.halt = none ∧ s.refused = none := by
  simp [State.running, Option.isNone_iff_eq_none]

end Sys2Proof.Machine
end

