-- ==== Sys2Proof/Laws/Port.lean ====
section
/-! SUPPORT. Everything an action of the host can do, and when it has no move (R334, R350 to R357). -/

namespace Sys2Proof.Machine

theorem State.load_tooLarge (s : State) {image : List Byte} (h : Config.progMax < image.length) :
    s.load image = (.tooLarge, s) := by
  rw [State.load, if_pos h]

theorem State.load_ok (s : State) {image : List Byte} (h : image.length ≤ Config.progMax) :
    s.load image = (.ok, { s with mem := s.mem.writeAll Config.progBase image }) := by
  rw [State.load, if_neg (Nat.not_lt.mpr h)]

/-- `load` keeps the canonical form of memory. -/
theorem State.load_wf {s : State} (h : s.mem.wf = true) (image : List Byte) : (s.load image).2.mem.wf = true := by
  rcases Nat.lt_or_ge Config.progMax image.length with hl | hl
  · rw [s.load_tooLarge hl]
    exact h
  · rw [s.load_ok hl]
    refine Memory.wf_writeAll h ?_
    simp only [Config.progMax, Config.progBase, Config.memSize] at hl ⊢
    omega

/-- There is no move that loads in a session that has not been reset since its last program or tick (R334, R356). -/
theorem hostStep_load_none {h : HostSession} (hm : h.mayLoad = false) (image : List Byte) :
    hostStep (.load image) h = none := by
  simp [hostStep, hm]

/-- A session in which the host may load has the move. -/
theorem hostStep_load {h : HostSession} (hm : h.mayLoad = true) (image : List Byte) :
    hostStep (.load image) h = some (.next (h.load image)) := by
  simp [hostStep, hm]

theorem HostSession.load_tooLarge (h : HostSession) {image : List Byte} (hl : Config.progMax < image.length) :
    h.load image = ⟨.loaded .tooLarge, h⟩ := by
  simp only [HostSession.load, h.state.load_tooLarge hl]

theorem HostSession.load_ok (h : HostSession) {image : List Byte} (hl : image.length ≤ Config.progMax) :
    h.load image =
      ⟨.loaded .ok, ⟨{ h.state with mem := h.state.mem.writeAll Config.progBase image }, false⟩⟩ := by
  simp only [HostSession.load, h.state.load_ok hl]

/-- Every tick of a session answers its event list. -/
theorem HostSession.tick_next {h : HostSession} {t : State} (hs : step h.state = .next t) :
    h.tick = .next ⟨.ticked t.events, ⟨t, false⟩⟩ := by
  simp only [HostSession.tick, hs]

/-- Everything an action of the host can do. -/
theorem hostStep_cases {a : HostAction} {h : HostSession} {r : HostAnswer} (hs : hostStep a h = some (.next r)) :
    (a = .reset ∧ r = ⟨.nothing, ⟨h.state.hostReset, true⟩⟩) ∨
      (∃ image, a = .load image ∧ h.mayLoad = true ∧ r = h.load image) ∨
      (∃ t, a = .tick ∧ step h.state = .next t ∧ r = ⟨.ticked t.events, ⟨t, false⟩⟩) ∨
      (∃ k, a = .press k ∧ r = ⟨.nothing, ⟨h.state.press k, h.mayLoad⟩⟩) ∨
      (∃ k, a = .release k ∧ r = ⟨.nothing, ⟨h.state.release k, h.mayLoad⟩⟩) ∨
      (a = .read ∧ r = ⟨.view h.state.hostView, h⟩) := by
  cases a with
  | reset => cases hs; exact Or.inl ⟨rfl, rfl⟩
  | load image =>
    simp only [hostStep] at hs
    split_ifs at hs with hm
    cases hs
    exact Or.inr (Or.inl ⟨image, rfl, hm, rfl⟩)
  | tick =>
    obtain ⟨t, ht⟩ := step_isNext h.state
    simp only [hostStep, HostSession.tick_next ht, Option.some.injEq, Host.Outcome.next.injEq] at hs
    exact Or.inr (Or.inr (Or.inl ⟨t, rfl, ht, hs.symm⟩))
  | press k => cases hs; exact Or.inr (Or.inr (Or.inr (Or.inl ⟨k, rfl, rfl⟩)))
  | release k => cases hs; exact Or.inr (Or.inr (Or.inr (Or.inr (Or.inl ⟨k, rfl, rfl⟩))))
  | read => cases hs; exact Or.inr (Or.inr (Or.inr (Or.inr (Or.inr ⟨rfl, rfl⟩))))

end Sys2Proof.Machine
end

