-- ==== Sys2Proof/Machine/Asm.lean ====
section
/-! DEFINITION. The assembly notation of an instruction (R108, R115): mnemonic, a space, operands separated by ", ". It is notation only and no state depends on it (log 10). -/

namespace Sys2Proof

/-- One hexadecimal digit, upper case. -/
def hexDigit (n : Nat) : Char := if n < 10 then Char.ofNat (48 + n) else Char.ofNat (55 + n)

/-- The low `k` hexadecimal digits of a number, the most significant first. -/
def hexDigits : Nat → Nat → List Char
  | 0, _ => []
  | k + 1, n => hexDigit (n / 16 ^ k % 16) :: hexDigits k n

/-- A register operand, `V0` to `VF`. -/
def asmReg (x : Reg) : String := String.ofList ['V', hexDigit x.val]

/-- An 8-bit immediate with its `0x` prefix. -/
def asmByte (nn : Byte) : String := String.ofList ('0' :: 'x' :: hexDigits 2 nn.toNat)

/-- A 12-bit address with its `0x` prefix. -/
def asmAddr (nnn : Word) : String := String.ofList ('0' :: 'x' :: hexDigits 3 nnn.toNat)

/-- A sprite height, one decimal number of at most two digits. -/
def asmHeight (n : Nat) : String :=
  String.ofList (if n < 10 then [hexDigit n] else [hexDigit (n / 10), hexDigit (n % 10)])

/-- The text of an instruction (the column "mnemonic" of R108). -/
def Instr.asm : Instr → String
  | .cls => "CLS"
  | .ret => "RET"
  | .jp nnn => "JP " ++ asmAddr nnn
  | .call nnn => "CALL " ++ asmAddr nnn
  | .seImm x nn => "SE " ++ asmReg x ++ ", " ++ asmByte nn
  | .sneImm x nn => "SNE " ++ asmReg x ++ ", " ++ asmByte nn
  | .seReg x y => "SE " ++ asmReg x ++ ", " ++ asmReg y
  | .ldImm x nn => "LD " ++ asmReg x ++ ", " ++ asmByte nn
  | .addImm x nn => "ADD " ++ asmReg x ++ ", " ++ asmByte nn
  | .ldReg x y => "LD " ++ asmReg x ++ ", " ++ asmReg y
  | .or x y => "OR " ++ asmReg x ++ ", " ++ asmReg y
  | .and x y => "AND " ++ asmReg x ++ ", " ++ asmReg y
  | .xor x y => "XOR " ++ asmReg x ++ ", " ++ asmReg y
  | .addReg x y => "ADD " ++ asmReg x ++ ", " ++ asmReg y
  | .sub x y => "SUB " ++ asmReg x ++ ", " ++ asmReg y
  | .shr x => "SHR " ++ asmReg x
  | .subn x y => "SUBN " ++ asmReg x ++ ", " ++ asmReg y
  | .shl x => "SHL " ++ asmReg x
  | .sneReg x y => "SNE " ++ asmReg x ++ ", " ++ asmReg y
  | .ldI nnn => "LD I, " ++ asmAddr nnn
  | .jpV0 nnn => "JP V0, " ++ asmAddr nnn
  | .rnd x nn => "RND " ++ asmReg x ++ ", " ++ asmByte nn
  | .drw x y n => "DRW " ++ asmReg x ++ ", " ++ asmReg y ++ ", " ++ asmHeight n
  | .skp x => "SKP " ++ asmReg x
  | .sknp x => "SKNP " ++ asmReg x
  | .ldVxDt x => "LD " ++ asmReg x ++ ", DT"
  | .ldVxK x => "LD " ++ asmReg x ++ ", K"
  | .ldDtVx x => "LD DT, " ++ asmReg x
  | .ldStVx x => "LD ST, " ++ asmReg x
  | .addIVx x => "ADD I, " ++ asmReg x
  | .ldFVx x => "LD F, " ++ asmReg x
  | .ldBVx x => "LD B, " ++ asmReg x
  | .ldMemVx x => "LD [I], " ++ asmReg x
  | .ldVxMem x => "LD " ++ asmReg x ++ ", [I]"

end Sys2Proof
end

