-- ==== Sys2Proof/Tests/Slice0.lean ====
section
/-! SUPPORT. The model's own tests: the well-formedness smoke test, a word of every constructor, single ticks with results from spec/95_test_vectors.md, and for every statement with hypotheses a state and operands that meet them. -/

namespace Sys2Proof.Machine

/-! ## Well-formedness -/

theorem test_wf_refuses_an_address_of_13_bits :
    (Instr.jp 0x1000).wf = false ∧ (Instr.call 0x1000).wf = false ∧ (Instr.ldI 0x1000).wf = false ∧
      (Instr.jpV0 0x1000).wf = false ∧ (Instr.jp 0xFFF).wf = true := by decide

theorem test_wf_refuses_a_height_of_16 : (Instr.drw 0 0 16).wf = false ∧ (Instr.drw 0 0 15).wf = true := by decide

/-! ## Decoding: words written out from R107 and R108 -/

theorem test_decode_display : decode 0x00E0 = .instr .cls ∧ decode 0xD12F = .instr (.drw 1 2 15) := by decide

theorem test_decode_flow :
    decode 0x00EE = .instr .ret ∧ decode 0x1234 = .instr (.jp 0x234) ∧ decode 0x2ABC = .instr (.call 0xABC) ∧
      decode 0x3A42 = .instr (.seImm 0xA 0x42) ∧ decode 0x4A42 = .instr (.sneImm 0xA 0x42) ∧
      decode 0x512F = .instr (.seReg 1 2) ∧ decode 0x9125 = .instr (.sneReg 1 2) ∧
      decode 0xB300 = .instr (.jpV0 0x300) := by decide

theorem test_decode_alu :
    decode 0x6A7F = .instr (.ldImm 0xA 0x7F) ∧ decode 0x7202 = .instr (.addImm 2 0x02) ∧
      decode 0x8120 = .instr (.ldReg 1 2) ∧ decode 0x8121 = .instr (.or 1 2) ∧ decode 0x8122 = .instr (.and 1 2) ∧
      decode 0x8123 = .instr (.xor 1 2) ∧ decode 0x8124 = .instr (.addReg 1 2) ∧ decode 0x8125 = .instr (.sub 1 2) ∧
      decode 0x8126 = .instr (.shr 1) ∧ decode 0x8127 = .instr (.subn 1 2) ∧ decode 0x812E = .instr (.shl 1) ∧
      decode 0xC3F0 = .instr (.rnd 3 0xF0) := by decide

theorem test_decode_index_memory :
    decode 0xA2F0 = .instr (.ldI 0x2F0) ∧ decode 0xF51E = .instr (.addIVx 5) ∧ decode 0xF529 = .instr (.ldFVx 5) ∧
      decode 0xF533 = .instr (.ldBVx 5) ∧ decode 0xF555 = .instr (.ldMemVx 5) ∧ decode 0xF565 = .instr (.ldVxMem 5) := by
  decide

theorem test_decode_keys_timers :
    decode 0xE39E = .instr (.skp 3) ∧ decode 0xE3A1 = .instr (.sknp 3) ∧ decode 0xF307 = .instr (.ldVxDt 3) ∧
      decode 0xF30A = .instr (.ldVxK 3) ∧ decode 0xF315 = .instr (.ldDtVx 3) ∧ decode 0xF318 = .instr (.ldStVx 3) := by
  decide

theorem test_decode_unknown :
    decode 0x8008 = .unknown ∧ decode 0x800F = .unknown ∧ decode 0xE000 = .unknown ∧ decode 0xF000 = .unknown ∧
      decode 0x0123 = .unknown := by decide

/-- The table of R110 for the words of vectors CYC-12 to CYC-14. -/
theorem test_decode_zero_group :
    decodeWith .refuse 0x0120 = .refused ∧ decodeWith .lowNibble 0x0120 = .instr .cls ∧
      decodeWith .lowByte 0x0120 = .unknown ∧ decodeWith .exact 0x0120 = .unknown ∧
      decodeWith .lowByte 0x01E0 = .instr .cls ∧ decodeWith .lowNibble 0x03EE = .instr .ret ∧
      decodeWith .lowByte 0x03EE = .instr .ret ∧ decodeWith .exact 0x03EE = .unknown := by decide

theorem test_table_word : decodeTableWord 16 0x6005 = some (.ldImm 0 5) ∧ decodeTableWord 16 0x8008 = none := by decide

/-- Assembly lines of the programs of 95_test_vectors.md. -/
theorem test_asm : (Instr.drw 1 2 5).asm = "DRW V1, V2, 5" ∧ (Instr.call 0x208).asm = "CALL 0x208" ∧
    (Instr.ldImm 0 3).asm = "LD V0, 0x03" ∧ (Instr.ldDtVx 0).asm = "LD DT, V0" := by decide

/-! ## Helpers -/

/-- The launch state with the word `w` as its first instruction. -/
def start (w : Word) : State := State.reset.withFetchWord 16 w.toNat

/-- A register file that starts with the given bytes. -/
def regs (l : List Byte) : Vector Byte 16 := Vector.ofFn (fun k => l.getD k.val 0)

/-- A register file with `b` in VF and `l` from V0 on. -/
def regsF (l : List Byte) (b : Byte) : Vector Byte 16 := (regs l).set 15 b

/-- The state after one tick. -/
def tick (s : State) : State :=
  match step s with
  | .next t => t
  | .fault _ => s
  | .refused _ => s

/-! ## Single ticks -/

theorem test_withFetchWord : (start 0x6005).pc = 0x200 ∧ (start 0x6005).fetch = some 0x6005 := by decide

/-- SRC-1. -/
theorem test_ldImm : (tick (start 0x6005)).getV 0 = 5 ∧ (tick (start 0x6005)).pc = 0x202 := by decide

/-- ALU-1. -/
theorem test_addImm :
    (tick { start 0x7202 with v := regsF [0, 0, 0xFF] 0x33 }).getV 2 = 1 ∧
      (tick { start 0x7202 with v := regsF [0, 0, 0xFF] 0x33 }).getV vF = 0x33 := by decide

/-- ALU-3 and ALU-4. -/
theorem test_copy_and_logic :
    (tick { start 0x8010 with v := regs [0, 9] }).getV 0 = 9 ∧
      (tick { start 0x8011 with v := regs [0xF0, 0x0C] }).getV 0 = 0xFC ∧
      (tick { start 0x8012 with v := regs [0xF0, 0x3C] }).getV 0 = 0x30 ∧
      (tick { start 0x8013 with v := regs [0xF0, 0x3C] }).getV 0 = 0xCC := by decide

/-- ALU-7 and ALU-8. -/
theorem test_addReg :
    (tick { start 0x8014 with v := regs [0xFF, 0x01] }).v = regsF [0x00, 0x01] 1 ∧
      (tick { start 0x8014 with v := regs [0x80, 0x7F] }).v = regsF [0xFF, 0x7F] 0 := by decide

/-- SRC-4. -/
theorem test_sub :
    (tick { start 0x8015 with v := regs [5, 7] }).v = regsF [0xFE, 7] 0 ∧
      (tick { start 0x8015 with v := regs [9, 9] }).v = regsF [0, 9] 1 := by decide

/-- SRC-5. -/
theorem test_subn :
    (tick { start 0x8017 with v := regs [7, 5] }).v = regsF [0xFE, 5] 0 ∧
      (tick { start 0x8017 with v := regs [5, 7] }).v = regsF [2, 7] 1 := by decide

/-- ALU-12 and ALU-13. -/
theorem test_shr :
    (tick { start 0x8006 with v := regs [0xFF] }).v = regsF [0x7F] 1 ∧
      (tick { start 0x8016 with v := regs [0x05, 0xAA] }).v = regsF [0x02, 0xAA] 1 := by decide

/-- ALU-14. -/
theorem test_shl :
    (tick { start 0x800E with v := regs [0x7F] }).v = regsF [0xFE] 0 ∧
      (tick { start 0x800E with v := regs [0xFF] }).v = regsF [0xFE] 1 := by decide

/-- ALU-16: both settings of VF_WRITE_ORDER, with y = 0xF. -/
theorem test_order_add :
    (State.flagged { State.reset with v := regsF [0, 0x90] 0x80 } .flagFirst 1 15 carryFlag (· + ·)).v
        = regsF [0, 0x91] 1 ∧
      (State.flagged { State.reset with v := regsF [0, 0x90] 0x80 } .operandsFirst 1 15 carryFlag (· + ·)).v
        = regsF [0, 0x10] 1 := by decide

/-- ALU-18: both settings, with x = 0xF. -/
theorem test_order_sub :
    (State.flagged { State.reset with v := regsF [0, 3] 5 } .flagFirst 15 1 notBorrowFlag (· - ·)).v
        = regsF [0, 3] 0xFE ∧
      (State.flagged { State.reset with v := regsF [0, 3] 5 } .operandsFirst 15 1 notBorrowFlag (· - ·)).v
        = regsF [0, 3] 1 := by decide

/-- ALU-28: with the mask 0 the draw does not matter. -/
theorem test_rnd (s : State) : execRnd 0 0 s = .next (s.drawn.setV 0 0) := by
  simp [execRnd]

/-- SRC-8, both draws: the collision flag, a cell and REDRAW. -/
theorem test_drw :
    let s := { start 0xD011 with i := 0x300, mem := (start 0xD011).mem.writeAll 0x300 [0xFF] }
    let t := tick s
    let u := tick { t with pc := 0x200 }
    (t.getV vF = 0 ∧ t.fb[0] = true ∧ t.fb[7] = true ∧ t.fb[8] = false ∧ t.redraw = true) ∧
      (u.getV vF = 1 ∧ u.fb[0] = false ∧ u.fb[7] = false ∧ u.redraw = true) := by decide +kernel

/-- DISP-4: the flat wraparound. -/
theorem test_drw_wraps : (cellIndex 255 255 0 0).val = 191 ∧ (cellIndex 255 255 0 7).val = 198 ∧
    (cellIndex 0 31 1 0).val = 0 := by decide

/-- SRC-7. -/
theorem test_cls (s : State) : execCls s = .next { s with fb := Vector.replicate 2048 false, redraw := true } := rfl

/-- FLOW-1 and FLOW-4. -/
theorem test_jumps : (tick (start 0x1234)).pc = 0x234 ∧
    (tick { start 0xBF01 with v := regs [0xFF] }).pc = 0x1000 := by decide

/-- FLOW-6. -/
theorem test_call :
    (tick (start 0x2300)).stack[0] = 0x202 ∧ (tick (start 0x2300)).sp = 1 ∧ (tick (start 0x2300)).pc = 0x300 := by decide

/-- FLOW-9. -/
theorem test_ret :
    let s := { start 0x00EE with sp := 2, stack := ((Vector.replicate 16 0).set 0 0x202).set 1 0x304 }
    (tick s).sp = 1 ∧ (tick s).pc = 0x304 ∧ (tick s).stack[0] = 0x202 ∧ (tick s).stack[1] = 0 := by decide

/-- FLOW-7 and FLOW-8. -/
theorem test_stack_violations :
    (tick { start 0x2200 with sp := 16 }).halt = some ⟨.stackOverflow, 0x200, some 0x2200⟩ ∧
      (tick (start 0x00EE)).halt = some ⟨.stackUnderflow, 0x200, some 0x00EE⟩ := by decide

/-- SRC-14 and FLOW-10 to FLOW-13. -/
theorem test_skips :
    (tick { start 0x3342 with v := regs [0, 0, 0, 0x42] }).pc = 0x204 ∧
      (tick { start 0x4342 with v := regs [0, 0, 0, 0x42] }).pc = 0x202 ∧
      (tick { start 0x512F with v := regs [0, 7, 7] }).pc = 0x204 ∧
      (tick { start 0x9125 with v := regs [0, 7, 7] }).pc = 0x202 ∧
      (tick { start 0x9120 with v := regs [0, 7, 8] }).pc = 0x204 := by decide

/-- IDX-2, IDX-3, IDX-8 and IDX-7. -/
theorem test_addIVx :
    ((tick { start 0xF01E with i := 0xFF0, v := regs [0x20] }).i = 0x1010 ∧
      (tick { start 0xF01E with i := 0xFF0, v := regs [0x20] }).getV vF = 1) ∧
      (tick { start 0xF01E with i := 0xFF0, v := regs [0x0F] }).getV vF = 0 ∧
      (tick { start 0xF01E with i := 0xFF7F, v := regs [0x80] }).i = 0xFFFF ∧
      (tick { start 0xF01E with i := 0xFF80, v := regs [0x80] }).halt
        = some ⟨.indexOverflow 0x10000, 0x200, some 0xF01E⟩ := by decide

/-- IDX-9: both settings of VF_WRITE_ORDER, with x = 0xF. -/
theorem test_order_addIVx :
    State.indexAddend { State.reset with v := regsF [] 2, i := 0xFFE } .flagFirst 15 = 1 ∧
      State.indexAddend { State.reset with v := regsF [] 2, i := 0xFFE } .operandsFirst 15 = 2 := by decide

/-- R252: V[x] * 5, not reduced to a digit. -/
theorem test_index_loads : (tick (start 0xA2F0)).i = 0x2F0 ∧ (tick { start 0xF529 with v := regs [0, 0, 0, 0, 0, 0xFF] }).i = 1275 := by
  decide

/-- SRC-9. -/
theorem test_bcd :
    let t := tick { start 0xF533 with i := 0x400, v := regs [0, 0, 0, 0, 0, 0xEA] }
    t.mem.read 0x400 = 2 ∧ t.mem.read 0x401 = 3 ∧ t.mem.read 0x402 = 4 ∧ t.i = 0x400 := by decide

/-- SRC-10. -/
theorem test_dump :
    let t := tick { start 0xF255 with i := 0x300, v := regs [0x11, 0x22, 0x33, 0x44] }
    t.mem.read 0x300 = 0x11 ∧ t.mem.read 0x302 = 0x33 ∧ t.mem.read 0x303 = 0 ∧ t.i = 0x303 := by decide

/-- SRC-10. -/
theorem test_load :
    let t := tick { start 0xF265 with i := 0x300, mem := (start 0xF265).mem.writeAll 0x300 [0x11, 0x22, 0x33, 0x44] }
    t.v = regs [0x11, 0x22, 0x33] ∧ t.i = 0x303 := by decide

/-- DISP-6 in the halt record: the lowest address out of range. -/
theorem test_access_beyond :
    (tick { start 0xD013 with i := 0xFFE }).halt = some ⟨.memOutOfRange 0x1000, 0x200, some 0xD013⟩ := by decide

/-- SKP and SKNP on a pressed key (R280, R281). -/
theorem test_key_skips :
    (tick { (start 0xE19E).press 3 with v := regs [0, 3] }).pc = 0x204 ∧
      (tick { (start 0xE1A1).press 3 with v := regs [0, 3] }).pc = 0x202 := by decide

/-- SRC-16. -/
theorem test_wait_for_key :
    (tick { start 0xF20A with dt := 3 }).pc = 0x200 ∧ (tick { start 0xF20A with dt := 3 }).await = true ∧
      (tick { start 0xF20A with dt := 3 }).dt = 2 ∧ (tick ((start 0xF20A).press 0xB)).getV 2 = 0xB := by decide

/-- R282, R284 and R285, each with the decrement of its own tick. -/
theorem test_timers :
    (tick { start 0xF307 with dt := 9 }).getV 3 = 9 ∧ (tick { start 0xF315 with v := regs [0, 0, 0, 9] }).dt = 8 ∧
      (tick { start 0xF318 with v := regs [0, 0, 0, 1] }).events = [.soundStop] := by decide

/-- CYC-2 and CYC-3. -/
theorem test_fetch_and_unknown :
    (tick { start 0x6000 with pc := 0x1000 }).halt = some ⟨.fetchOutOfRange, 0x1000, none⟩ ∧
      (tick { start 0x8008 with dt := 5 }).events = [.unknownOpcode 0x200 0x8008] ∧
      (tick { start 0x8008 with dt := 5 }).pc = 0x202 ∧ (tick { start 0x8008 with dt := 5 }).dt = 4 := by decide

/-- CYC-5 and CYC-7. -/
theorem test_cycle_end :
    (tick ((start 0x6000).press 3)).kflag = false ∧ (tick ((start 0x6000).press 3)).klatch = 3 ∧
      (tick { start 0x6000 with st := 1 }).events = [.soundStop] := by decide

/-- The numbers of R300, and how the model counts a halted state (R304). -/
theorem test_conditions :
    [Fatal.stackOverflow, .stackUnderflow, .fetchOutOfRange, .memOutOfRange 0, .keyIndexOutOfRange 0, .indexOverflow 0].map
        Fatal.code = [2, 3, 4, 5, 6, 7] ∧
      (tick (start 0x00EE)).verdict = .fault (.halted ⟨.stackUnderflow, 0x200, some 0x00EE⟩) :=
  ⟨by decide, rfl⟩

/-! ## States and operands that meet the hypotheses of the statements -/

/-- Fetches holds of a launch state. -/
theorem fetches_of {s : State} {w : Word} (h : s.running = true ∧ s.fetch = some w) : Fetches s w := h

theorem test_meets_DecodeOfEncode : (Instr.drw 15 15 15).wf = true ∧ (Instr.jp 0xFFF).wf = true := by decide

theorem test_meets_DecodedWord : fieldG 0x512F ≠ 0 ∧ decode 0x512F = .instr (.seReg 1 2) := by decide

theorem test_meets_WordOfARow : (Instr.ldVxMem 0).row ∈ opcodeMap ∧ (Instr.ldVxMem 0).row.matches 0xFF65 = true := by
  decide

theorem test_meets_ZeroGroupWords :
    (fieldG 0x0120 = 0 ∧ fieldN 0x0120 = 0x0 ∧ (0x0120 : Word) ≠ 0x00E0 ∧ (0x0120 : Word) ≠ 0x00EE) ∧
      (fieldG 0x0FEE = 0 ∧ fieldN 0x0FEE = 0xE ∧ (0x0FEE : Word) ≠ 0x00E0 ∧ (0x0FEE : Word) ≠ 0x00EE) ∧
      (fieldG 0x0FFF = 0 ∧ fieldN 0x0FFF ≠ 0x0 ∧ fieldN 0x0FFF ≠ 0xE) := by decide

theorem test_meets_ClearScreen : Fetches (start 0x00E0) 0x00E0 ∧ decode 0x00E0 = .instr .cls :=
  ⟨fetches_of (by decide), by decide⟩

theorem test_meets_TickOfAFlag :
    (∀ key ∈ [0x4, 0x5, 0x7], (14 : Reg) ≠ vF ∧ (14 : Reg) ≠ vF ∧
      Fetches (start (BitVec.ofNat 16 (0x8000 + 14 * 256 + 14 * 16 + key)))
        (BitVec.ofNat 16 (0x8000 + 14 * 256 + 14 * 16 + key))) ∧
      ∀ key ∈ [0x6, 0xE], (14 : Reg) ≠ vF ∧
        Fetches (start (BitVec.ofNat 16 (0x8000 + 14 * 256 + 15 * 16 + key)))
          (BitVec.ofNat 16 (0x8000 + 14 * 256 + 15 * 16 + key)) := by
  unfold Fetches; decide

theorem test_meets_Draw :
    (15 < 16 ∧ ({ State.reset with i := 0xFF1 } : State).i.toNat + 15 ≤ 0x1000) ∧
      (14 : Reg) ≠ vF := by decide

theorem test_meets_Jumps : fitsAddr 0xFFF = true := by decide

theorem test_meets_CallAndReturn :
    ({ State.reset with sp := 15 } : State).sp.val < 16 ∧
      ({ State.reset with sp := 16 } : State).sp.val = (15 : Fin 16).val + 1 ∧
      ({ State.reset with sp := 1 } : State).sp.val = (0 : Fin 16).val + 1 := by decide

theorem test_meets_StackViolations : ({ State.reset with sp := 16 } : State).sp.val = 16 ∧ State.reset.sp.val = 0 := by
  decide

theorem test_meets_KeySkips :
    (({ State.reset with v := regs [0xF] } : State).getV 0).toNat = (15 : Key).val ∧
      (({ State.reset with v := regs [0x10] } : State).getV 0).toNat > 0xF := by decide

theorem test_meets_TickOfASkip :
    (Fetches (start 0x3FFF) 0x3FFF ∧ (0x3FFF : Word).toNat = 0x3000 + 15 * 256 + 255) ∧
      (Fetches (start 0x4FFF) 0x4FFF ∧ (0x4FFF : Word).toNat = 0x4000 + 15 * 256 + 255) ∧
      (Fetches (start 0x5FFF) 0x5FFF ∧ (0x5FFF : Word).toNat = 0x5000 + 15 * 256 + 15 * 16 + 15) ∧
      (Fetches (start 0x9FFF) 0x9FFF ∧ (0x9FFF : Word).toNat = 0x9000 + 15 * 256 + 15 * 16 + 15) ∧
      (Fetches { start 0xEF9E with v := regsF [] 0xF } 0xEF9E ∧ (0xEF9E : Word).toNat = 0xE09E + 15 * 256 ∧
        (({ start 0xEF9E with v := regsF [] 0xF } : State).getV 15).toNat = (15 : Key).val) ∧
      (Fetches { start 0xEFA1 with v := regsF [] 0xF } 0xEFA1 ∧ (0xEFA1 : Word).toNat = 0xE0A1 + 15 * 256 ∧
        (({ start 0xEFA1 with v := regsF [] 0xF } : State).getV 15).toNat = (15 : Key).val) := by
  unfold Fetches; decide

theorem test_meets_AddToIndex :
    (∀ o, IndexAddend o { State.reset with i := 0xFF00, v := regs [0xFF] } 0 0xFF) ∧ 0xFF00 + 0xFF ≤ 0xFFFF ∧
      (∀ o, IndexAddend o { State.reset with i := 0xFF01, v := regs [0xFF] } 0 0xFF) ∧ 0xFF01 + 0xFF > 0xFFFF :=
  ⟨fun o => by cases o <;> rfl, by decide, fun o => by cases o <;> rfl, by decide⟩

theorem test_meets_Bcd : State.reset.mem.wf = true ∧ ({ State.reset with i := 0xFFD } : State).i.toNat + 3 ≤ 0x1000 := by
  decide

theorem test_meets_DumpAndLoad :
    State.reset.mem.wf = true ∧ ({ State.reset with i := 0xFF0 } : State).i.toNat + (15 : Reg).val + 1 ≤ 0x1000 := by
  decide

theorem test_meets_AccessBeyond :
    ({ State.reset with i := 0xFFF } : State).i.toNat + 2 > 0x1000 ∧
      ({ State.reset with i := 0xFFE } : State).i.toNat + 3 > 0x1000 ∧
      ({ State.reset with i := 0xFF1 } : State).i.toNat + (15 : Reg).val + 1 > 0x1000 ∧
      ({ State.reset with i := 0x1000 } : State).i.toNat + (0 : Reg).val + 1 > 0x1000 := by decide

theorem test_meets_StoredBytes :
    State.reset.mem.wf = true ∧ ({ State.reset with i := 0xFF0 } : State).i.toNat + (15 : Reg).val + 1 ≤ 0x1000 ∧
      (15 : Reg) ≤ 15 ∧ ({ State.reset with i := 0xFFD } : State).i.toNat + 3 ≤ 0x1000 ∧
      ((0xFFE : Word).toNat ≤ 0xFFE ∧ (0xFFE : Word).toNat + 1 = ({ State.reset with i := 0xFF0 } : State).dataAddr 15) ∧
      (0xFFE : Word).toNat = ({ State.reset with i := 0xFFD } : State).dataAddr 1 := by decide

theorem test_meets_WaitForKey : (State.reset.press 15).kflag = true ∧ State.reset.kflag = false := by decide

theorem test_meets_WrittenTimer :
    (Fetches (start 0xFF15) 0xFF15 ∧ (0xFF15 : Word).toNat = 0xF015 + 15 * 256) ∧
      (Fetches (start 0xFF18) 0xFF18 ∧ (0xFF18 : Word).toNat = 0xF018 + 15 * 256) := by
  unfold Fetches; decide

/-- An instruction that leaves JUMP clear, and one that sets it: StepRunsTheDecodedInstruction and the statements on
steps 4 to 6. -/
theorem test_meets_StepRuns :
    (Fetches (start 0x6005) 0x6005 ∧ decode 0x6005 = .instr (.ldImm 0 5) ∧
      ∃ u, exec (.ldImm 0 5) (atExec (start 0x6005) 0x6005) = .next u ∧ u.halt = none ∧ u.jump = false) ∧
      (Fetches (start 0x1FFF) 0x1FFF ∧ decode 0x1FFF = .instr (.jp 0xFFF) ∧
        ∃ u, exec (.jp 0xFFF) (atExec (start 0x1FFF) 0x1FFF) = .next u ∧ u.halt = none ∧ u.jump = true) :=
  ⟨⟨fetches_of (by decide), by decide, _, rfl, rfl, rfl⟩, ⟨fetches_of (by decide), by decide, _, rfl, rfl, rfl⟩⟩

theorem test_meets_UnknownWord : Fetches (start 0x8008) 0x8008 ∧ decode 0x8008 = .unknown :=
  ⟨fetches_of (by decide), by decide⟩

theorem test_meets_CompletedTick :
    (start 0x6005).running = true ∧ ∃ t, step (start 0x6005) = .next t ∧ t.halt = none ∧ t.refused = none :=
  ⟨by decide, _, rfl, rfl, rfl⟩

theorem test_meets_FetchBeyond :
    ({ State.reset with pc := 0xFFF } : State).running = true ∧ ({ State.reset with pc := 0xFFF } : State).pc.toNat > 0xFFE := by
  decide

/-- With the record that the statement names. -/
theorem test_meets_FatalCondition :
    Fetches (start 0x00EE) 0x00EE ∧ decode 0x00EE = .instr .ret ∧
      ∃ u, exec .ret (atExec (start 0x00EE) 0x00EE) = .next u ∧ u.halt ≠ none :=
  ⟨fetches_of (by decide), by decide, _, rfl, by decide⟩

theorem test_meets_StoppedBlock :
    ({ State.reset with halt := some ⟨.stackUnderflow, 0x200, some 0x00EE⟩ } : State).halt ≠ none ∧
      ({ State.reset with refused := some ⟨0x200, 0x0120⟩ } : State).refused ≠ none := by decide

theorem test_meets_OpenZeroGroup :
    (Fetches (start 0x0120) 0x0120 ∧ fieldG 0x0120 = 0 ∧ fieldN 0x0120 = 0x0) ∧
      (Fetches (start 0x0FEE) 0x0FEE ∧ fieldG 0x0FEE = 0 ∧ fieldN 0x0FEE = 0xE ∧ fieldNN 0x0FEE = 0xEE) ∧
      (Fetches (start 0x0FE0) 0x0FE0 ∧ fieldG 0x0FE0 = 0 ∧ fieldN 0x0FE0 = 0x0 ∧ fieldNN 0x0FE0 = 0xE0) := by
  unfold Fetches; decide

/-- A launch state meets the invariant, and its tick and the host's actions answer. -/
theorem test_meets_Invariant :
    (start 0x6005).Inv ∧ (∃ t, step (start 0x6005) = .next t) ∧
      (∀ a ∈ [HostAction.reset, .load [0x12, 0x34], .press 15, .release 15, .read], a ≠ .tick) ∧
      ∀ a ∈ [HostAction.reset, .load [0x12, 0x34], .press 15, .release 15, .read, .tick],
        ∃ r, hostStep a ⟨start 0x6005, true⟩ = some (.next r) := by
  refine ⟨⟨by decide, by decide, by decide, by decide, rfl, by decide, Or.inl rfl, ?_, ?_⟩, ⟨_, rfl⟩, by decide, ?_⟩
  · intro r h; cases h
  · intro r h; cases h
  · intro a ha
    simp only [List.mem_cons, List.not_mem_nil, or_false] at ha
    rcases ha with rfl | rfl | rfl | rfl | rfl | rfl <;> exact ⟨_, rfl⟩

theorem test_meets_LoadsOntoReset : HostSession.start.LoadsOntoReset ∧ HostSession.start.mayLoad = true :=
  ⟨fun _ => rfl, rfl⟩

/-- SRC-1 through the host: reset, load, tick, read. -/
theorem test_host_launch :
    hostStep (.load [0x60, 0x05]) ⟨State.reset.hostReset, true⟩ =
        some (.next ⟨.loaded .ok, ⟨launch [0x60, 0x05], false⟩⟩) ∧
      (tick (launch [0x60, 0x05])).hostView.pc = 0x202 ∧ (tick (launch [0x60, 0x05])).hostView.v = regs [5] :=
  ⟨rfl, by decide, by decide⟩

/-- R334 and RST-4: no move for a load without a reset, and a long image is answered TooLarge. -/
theorem test_host_load (image : List Byte) :
    hostStep (.load image) ⟨State.reset, false⟩ = none ∧
      (image.length > 3584 → (State.reset.load image).1 = .tooLarge) :=
  ⟨rfl, fun h => by rw [State.load, if_pos h]⟩

theorem test_meets_OnlyTabledWritten :
    (∃ t, exec (.ldImm 0 5) State.reset = .next t) ∧ ¬ WritesReg (.ldImm 0 5) 15 :=
  ⟨⟨_, rfl⟩, by simp [WritesReg]⟩

theorem test_meets_OnlyTabledRead :
    ({ State.reset with v := regs [9] } : State) = { State.reset with v := ({ State.reset with v := regs [9] } : State).v } ∧
      (∀ r, ReadsReg (.ldReg 0 1) r → ({ State.reset with v := regs [9] } : State).getV r = State.reset.getV r) ∧
      (∃ t, exec (.ldReg 0 1) State.reset = .next t) ∧
      ∃ t, exec (.ldReg 0 1) { State.reset with v := regs [9] } = .next t := by
  refine ⟨rfl, fun r h => ?_, ⟨_, rfl⟩, ⟨_, rfl⟩⟩
  simp only [ReadsReg] at h
  subst h
  decide

theorem test_meets_IndexChanges : ∃ t, exec (.ldI 0xFFF) State.reset = .next t ∧ t.i ≠ State.reset.i :=
  ⟨_, rfl, by decide⟩

theorem test_meets_DisplayChanges :
    (∃ t, exec .cls State.reset = .next t ∧ t.redraw ≠ State.reset.redraw) ∧
      (start 0x00E0).running = true ∧ ∃ t, step (start 0x00E0) = .next t ∧ t.redraw = true :=
  ⟨⟨_, rfl, by decide⟩, by decide, _, rfl, rfl⟩

theorem test_meets_StackChanges :
    (∃ t, exec (.call 0xFFF) State.reset = .next t ∧ t.sp ≠ State.reset.sp) ∧
      ∃ t, exec .ret { State.reset with sp := 1 } = .next t ∧ t.sp ≠ 1 :=
  ⟨⟨_, rfl, by decide⟩, _, rfl, by decide⟩

theorem test_meets_TimersChange :
    (∃ t, exec (.ldDtVx 0) { State.reset with v := regs [0xFF] } = .next t ∧ t.dt ≠ 0) ∧
      ∃ t, exec (.ldStVx 0) { State.reset with v := regs [0xFF] } = .next t ∧ t.st ≠ 0 :=
  ⟨⟨_, rfl, by decide⟩, _, rfl, by decide⟩

theorem test_meets_MemoryChanges :
    State.reset.mem.wf = true ∧
      (∃ t, exec (.ldBVx 0) { State.reset with v := regs [1], i := 0xFFD } = .next t ∧ t.mem.read 0xFFF ≠ State.reset.mem.read 0xFFF) ∧
      ∃ t, exec (.ldMemVx 0) { State.reset with v := regs [1], i := 0xFFF } = .next t ∧ t.mem.read 0xFFF ≠ State.reset.mem.read 0xFFF :=
  ⟨by decide, ⟨_, rfl, by decide⟩, _, rfl, by decide⟩

theorem test_meets_OnlyTheHostWritesTheKeys : ∃ t, step ((start 0x6005).press 15) = .next t := ⟨_, rfl⟩

theorem test_meets_Finished : (start 0x1200).finished :=
  ⟨⟨rfl, rfl⟩, by decide⟩

theorem test_meets_Load :
    State.reset.mem.wf = true ∧ (List.replicate 3585 (0xAA : Byte)).length > 3584 ∧
      (List.replicate 3584 (0xAA : Byte)).length ≤ 3584 :=
  ⟨rfl, by rw [List.length_replicate]; decide, by rw [List.length_replicate]⟩

end Sys2Proof.Machine
end

section
/-! Steps 4 to 7 of the cycle (R144 to R147): which instructions set JUMP, what the end of a tick does to PC, the
timers, the events and the key latch, and the statements about them. -/

namespace Sys2Proof.Machine

/-! ## The end of a tick -/

/-- A timer counts down by one and stays at 0 (R145, R146). -/
theorem toNat_countDown (b : Byte) : (if b = 0 then 0 else b - 1).toNat = b.toNat - 1 := by
  split_ifs with h
  · simp [h]
  · bv_omega

@[simp] theorem State.finishTick_pc (s : State) : s.finishTick.pc = if s.jump then s.pc else s.pc + 2 := by
  rw [s.finishTick_eq]

@[simp] theorem State.finishTick_dt_toNat (s : State) : s.finishTick.dt.toNat = s.dt.toNat - 1 := by
  rw [s.finishTick_eq]
  exact toNat_countDown s.dt

@[simp] theorem State.finishTick_st_toNat (s : State) : s.finishTick.st.toNat = s.st.toNat - 1 := by
  rw [s.finishTick_eq]
  exact toNat_countDown s.st

@[simp] theorem State.finishTick_kflag (s : State) : s.finishTick.kflag = false := rfl

@[simp] theorem State.finishTick_klatch (s : State) : s.finishTick.klatch = s.klatch := by
  rw [s.finishTick_eq]

theorem State.finishTick_events (s : State) :
    s.finishTick.events = if s.st = 1 then s.events ++ [.soundStop] else s.events := by
  rw [s.finishTick_eq]

/-- Steps 4 to 7 add SoundStop exactly on the edge of ST from 1 to 0 (R146). -/
theorem State.soundStop_mem_finishTick {s : State} (h : .soundStop ∉ s.events) :
    .soundStop ∈ s.finishTick.events ↔ s.st.toNat = 1 := by
  have edge : s.st = 1 ↔ s.st.toNat = 1 := by bv_omega
  rw [s.finishTick_events, ← edge]
  split_ifs with hst
  · exact iff_of_true (List.mem_concat_self ..) hst
  · exact iff_of_false h hst

/-! ## The ticks that complete -/

@[simp] theorem State.afterExec_halt (s : State) : s.afterExec.halt = s.halt := by
  unfold State.afterExec
  split_ifs
  · rfl
  · rw [s.finishTick_eq]

theorem State.afterExec_of_completed {s : State} (h : s.halt = none) : s.afterExec = s.finishTick := by
  simp [State.afterExec, h]

/-- An instruction that raises no fatal condition is followed by steps 4 to 7. -/
theorem step_of_instr {s u : State} {w : Word} {i : Instr} (hf : Fetches s w) (hd : decode w = .instr i)
    (he : exec i (atExec s w) = .next u) (hu : u.halt = none) : step s = .next u.finishTick := by
  obtain ⟨hrun, hfetch⟩ := hf
  rw [step_fetched hrun hfetch, runWord_instr hd he, State.afterExec_of_completed hu]

theorem step_of_unknown {s : State} {w : Word} (hf : Fetches s w) (hd : decode w = .unknown) :
    step s = .next (s.beginTick.unknownWord w) := by
  obtain ⟨hrun, hfetch⟩ := hf
  rw [step_fetched hrun hfetch, runWord_unknown hd]

/-- An instruction that raises no fatal condition leaves the fields of the cycle alone. -/
theorem exec_cycleFieldsKept {i : Instr} {s u : State} (h : exec i s = .next u) (hu : u.halt = none) :
    CycleFieldsKept s u := by
  rcases exec_cases h with ⟨c, rfl⟩ | hk
  · cases hu
  · exact hk

/-! ## JUMP -/

/-- The instruction sets JUMP when it completes, with KFLAG as it finds it (R144, R283). -/
def setsJump : Instr → Bool → Bool
  | .ret, _ => true
  | .jp _, _ => true
  | .call _, _ => true
  | .jpV0 _, _ => true
  | .ldVxK _, kflag => !kflag
  | _, _ => false

theorem setsJump_iff (i : Instr) (kflag : Bool) :
    setsJump i kflag = true ↔ i = .ret ∨ (∃ nnn, i = .jp nnn ∨ i = .call nnn ∨ i = .jpV0 nnn) ∨
      ((∃ x, i = .ldVxK x) ∧ kflag = false) := by
  cases i <;> simp [setsJump]

/-- An instruction that completes leaves JUMP set exactly when it sets it (R144). -/
theorem exec_jump {i : Instr} {s u : State} (h : exec i s = .next u) (hs : s.jump = false) (hu : u.halt = none) :
    u.jump = setsJump i s.kflag := by
  cases i with
  | ret =>
    rcases exec_ret_cases h with ⟨_, rfl⟩ | ⟨_, rfl⟩
    · rfl
    · cases hu
  | call nnn =>
    rcases exec_call_cases h with ⟨_, rfl⟩ | ⟨_, rfl⟩
    · rfl
    · cases hu
  | jp nnn => cases h; rfl
  | jpV0 nnn => cases h; rfl
  | ldVxK x =>
    rcases exec_ldVxK_cases h with ⟨hk, rfl⟩ | ⟨hk, rfl⟩
    · simp [setsJump, hk, hs]
    · simp [setsJump, hk]
  | drw x y n =>
    rcases exec_drw_cases h with ⟨_, rfl⟩ | ⟨_, rfl⟩
    · exact hs
    · cases hu
  | skp x =>
    rcases exec_skp_cases h with ⟨_, rfl⟩ | ⟨_, rfl⟩
    · exact (s.skipIf_jump _).trans hs
    · cases hu
  | sknp x =>
    rcases exec_sknp_cases h with ⟨_, rfl⟩ | ⟨_, rfl⟩
    · exact (s.skipIf_jump _).trans hs
    · cases hu
  | addIVx x =>
    rcases exec_addIVx_cases h with ⟨_, rfl⟩ | ⟨_, rfl⟩
    · exact hs
    · cases hu
  | ldBVx x =>
    rcases exec_ldBVx_cases h with ⟨_, rfl⟩ | ⟨_, rfl⟩
    · exact hs
    · cases hu
  | ldMemVx x =>
    rcases exec_ldMemVx_cases h with ⟨_, rfl⟩ | ⟨_, rfl⟩
    · exact hs
    · cases hu
  | ldVxMem x =>
    rcases exec_ldVxMem_cases h with ⟨_, rfl⟩ | ⟨_, rfl⟩
    · exact hs
    · cases hu
  | seImm x nn => cases h; exact (s.skipIf_jump _).trans hs
  | sneImm x nn => cases h; exact (s.skipIf_jump _).trans hs
  | seReg x y => cases h; exact (s.skipIf_jump _).trans hs
  | sneReg x y => cases h; exact (s.skipIf_jump _).trans hs
  | addReg x y => cases h; rw [State.flagged_eq]; exact hs
  | sub x y => cases h; rw [State.flagged_eq]; exact hs
  | shr x => cases h; rw [State.flagged_eq]; exact hs
  | subn x y => cases h; rw [State.flagged_eq]; exact hs
  | shl x => cases h; rw [State.flagged_eq]; exact hs
  | _ => cases h; exact hs

/-! ## The statements -/

/-- Settles O36: step 4 reads JUMP, which step 1 cleared and only the listed instructions set. -/
theorem pcAdvancesByTwoUnlessJumpIsSet : Obligations.PcAdvancesByTwoUnlessJumpIsSet := by
  intro s u w i hf hd he hu
  have hjump : u.jump = setsJump i s.kflag := exec_jump (s := atExec s w) he rfl hu
  exact ⟨⟨u.finishTick, step_of_instr hf hd he hu, u.finishTick_pc⟩, by rw [hjump, setsJump_iff]⟩

/-- Settles O37: both kinds of tick end with steps 4 to 7, and an unknown word leaves DT to them. -/
theorem everyCompletedTickCountsDelayDown : Obligations.EveryCompletedTickCountsDelayDown := by
  intro s w hf
  constructor
  · intro i u hd he hu
    exact ⟨u.finishTick, step_of_instr hf hd he hu, u.finishTick_dt_toNat⟩
  · intro hd
    exact ⟨_, step_of_unknown hf hd, State.finishTick_dt_toNat _⟩

/-- Settles O38: neither step 1 nor step 3 leaves a SoundStop in the events, so that one there is step 6's. -/
theorem everyCompletedTickCountsSoundDown : Obligations.EveryCompletedTickCountsSoundDown := by
  intro s w hf
  constructor
  · intro i u hd he hu
    have hevents : u.events = [] := (exec_cycleFieldsKept he hu).events
    exact ⟨u.finishTick, step_of_instr hf hd he hu, u.finishTick_st_toNat,
      State.soundStop_mem_finishTick (by simp [hevents])⟩
  · intro hd
    exact ⟨_, step_of_unknown hf hd, State.finishTick_st_toNat _,
      State.soundStop_mem_finishTick (s := s.beginTick.emit (.unknownOpcode s.pc w)) (by simp)⟩

/-- Settles O39: a tick of a running block that records no halt and no refusal ends with steps 4 to 7, and no
instruction writes KLATCH. -/
theorem completedTickClearsKeyFlagAndKeepsLatch : Obligations.CompletedTickClearsKeyFlagAndKeepsLatch := by
  intro s t hr h hhalt hrefused
  rcases step_cases h with ⟨hstop, _⟩ | ⟨_, _, rfl⟩ | ⟨w, _, _, hword⟩
  · simp [hr] at hstop
  · cases hhalt
  · rcases hword with ⟨i, u, _, he, rfl⟩ | ⟨_, rfl⟩ | ⟨_, rfl⟩
    · have hu : u.halt = none := by simpa using hhalt
      have hklatch : u.klatch = s.klatch := (exec_cycleFieldsKept he hu).klatch
      simp [State.afterExec_of_completed hu, hklatch]
    · simp [State.unknownWord]
    · cases hrefused

end Sys2Proof.Machine
end

section
/-! CLS (R160): what the instruction does to the display and leaves alone, and its tick. -/

namespace Sys2Proof.Machine

/-! ## The display at the end of a tick -/

@[simp] theorem State.finishTick_fb (s : State) : s.finishTick.fb = s.fb := by
  rw [s.finishTick_eq]

@[simp] theorem State.finishTick_redraw (s : State) : s.finishTick.redraw = s.redraw := by
  rw [s.finishTick_eq]

/-! ## CLS -/

theorem exec_cls (s : State) :
    exec .cls s = .next { s with fb := Vector.replicate Config.cells false, redraw := true } := rfl

theorem exec_cls_clears (s : State) :
    ∃ t, exec .cls s = .next t ∧ (∀ k : Fin Config.cells, t.fb[k] = false) ∧ t.redraw = true ∧
      SameExcept [.fb, .redraw] s t := by
  refine ⟨_, exec_cls s, fun k => Vector.getElem_replicate k.isLt, rfl, fun f hf => ?_⟩
  cases f with
  | fb => simp at hf
  | redraw => simp at hf
  | mem | v | stack | key => exact fun _ => rfl
  | _ => rfl

/-! ## The statement -/

/-- Settles O14: CLS raises no fatal condition and sets no JUMP, so that steps 4 to 7 follow it and keep the display. -/
theorem clearScreenZeroesEveryCell : Obligations.ClearScreenZeroesEveryCell := by
  refine fun s => ⟨exec_cls_clears s, fun w hf hd => ?_⟩
  obtain ⟨u, he, hfb, hredraw, hframe⟩ := exec_cls_clears (atExec s w)
  have hhalt : u.halt = none := (hframe .halt (by decide)).trans (s.running_iff.mp hf.1).1
  have hjump : u.jump = false := hframe .jump (by decide)
  have hpc : u.pc = s.pc := hframe .pc (by decide)
  exact ⟨u.finishTick, step_of_instr hf hd he hhalt, by simpa using hfb, by simpa using hredraw, by simp [hjump, hpc]⟩

end Sys2Proof.Machine
end

section
/-! The skips (R151, R183 to R186): the frame of a skip, and the four skips on registers and immediates. -/

namespace Sys2Proof.Machine

/-- A skip changes PC alone, whether it is taken or not. -/
theorem State.skipIf_sameExcept (s : State) (c : Bool) : SameExcept [.pc] s (s.skipIf c) := by
  intro f hf
  cases f with
  | pc => simp at hf
  | _ => simp [Field.same]

theorem exec_skips {i : Instr} {s : State} {c : Bool} (h : exec i s = .next (s.skipIf c)) :
    ∃ t, exec i s = .next t ∧ t.pc = (if c then s.pc + 2 else s.pc) ∧ SameExcept [.pc] s t :=
  ⟨s.skipIf c, h, s.skipIf_pc c, s.skipIf_sameExcept c⟩

theorem exec_skips_of_eq {i : Instr} {s : State} {a b : Byte} (h : exec i s = .next (s.skipIf (a == b))) :
    ∃ t, exec i s = .next t ∧ t.pc = (if a.toNat = b.toNat then s.pc + 2 else s.pc) ∧ SameExcept [.pc] s t := by
  simpa only [beq_iff_eq, BitVec.toNat_inj] using exec_skips h

theorem exec_skips_of_ne {i : Instr} {s : State} {a b : Byte} (h : exec i s = .next (s.skipIf (a != b))) :
    ∃ t, exec i s = .next t ∧ t.pc = (if a.toNat = b.toNat then s.pc else s.pc + 2) ∧ SameExcept [.pc] s t := by
  simpa only [bne_iff_ne, ne_eq, ite_not, BitVec.toNat_inj] using exec_skips h

/-! ## The statement -/

/-- Settles O21: each of the four is a skip on the equality or the inequality of two bytes. -/
theorem registerSkipsAddTwoWhenTheirConditionHolds : Obligations.RegisterSkipsAddTwoWhenTheirConditionHolds :=
  fun _ _ _ _ => ⟨exec_skips_of_eq rfl, exec_skips_of_ne rfl, exec_skips_of_eq rfl, exec_skips_of_ne rfl⟩

end Sys2Proof.Machine
end

section
/-! The register instructions without a flag (R212 to R217): the frame of a write to one register, and the loads, the
copy, the addition of an immediate and the three logic forms. -/

namespace Sys2Proof.Machine

/-! ## The frame of a register write -/

theorem State.setV_sameExcept (s : State) (x : Reg) (b : Byte) : SameExcept [.v] s (s.setV x b) := by
  intro f hf
  cases f with
  | v => simp at hf
  | _ => simp [Field.same]

theorem State.setV_writesOnly (s : State) (x : Reg) (b : Byte) : WritesOnly s (s.setV x b) x b :=
  ⟨s.getV_setV_same x b, fun _ hr => s.getV_setV_other b hr, s.setV_sameExcept x b⟩

/-- The frame of an instruction whose new value is stated apart, by what holds of it. -/
theorem State.setV_writesOnly_getV (s : State) (x : Reg) (b : Byte) :
    WritesOnly s (s.setV x b) x ((s.setV x b).getV x) := by
  rw [s.getV_setV_same x b]
  exact s.setV_writesOnly x b

/-! ## The statements -/

/-- Settles O7: both instructions are one register write, of NN or of the sum, which a byte wraps modulo 256. -/
theorem immediateLoadAndAddWriteOnlyVx : Obligations.ImmediateLoadAndAddWriteOnlyVx := by
  refine fun x nn s => ⟨⟨_, rfl, s.setV_writesOnly x nn⟩, ⟨_, rfl, ?_, s.setV_writesOnly_getV x _⟩⟩
  rw [State.getV_setV_same, BitVec.toNat_add]

/-- Settles O8: each of the four is one register write, and a logic form acts on every bit by itself. -/
theorem copyAndLogicWriteOnlyVx : Obligations.CopyAndLogicWriteOnlyVx := by
  refine fun x y s => ⟨⟨_, rfl, s.setV_writesOnly x _⟩, ⟨_, rfl, s.setV_writesOnly_getV x _, fun b _ => ?or⟩,
    ⟨_, rfl, s.setV_writesOnly_getV x _, fun b _ => ?and⟩, ⟨_, rfl, s.setV_writesOnly_getV x _, fun b _ => ?xor⟩⟩
  case or => rw [State.getV_setV_same, BitVec.getLsbD_or]
  case and => rw [State.getV_setV_same, BitVec.getLsbD_and]
  case xor => rw [State.getV_setV_same, BitVec.getLsbD_xor]

end Sys2Proof.Machine
end

section
/-! The loads of I (R250, R252): the frame of a write to I, the address of a glyph, LD I and LD F. -/

namespace Sys2Proof.Machine

/-! ## A write to I and the address of a glyph -/

theorem State.withI_sameExcept (s : State) (a : Word) : SameExcept [.i] s { s with i := a } := by
  intro f hf
  cases f with
  | i => simp at hf
  | mem | v | stack | fb | key => exact fun _ => rfl
  | _ => rfl

/-- The product never wraps: 255 * 5 fits 16 bits, so no digit above 0xF is reduced (R252). -/
theorem glyphAddr_toNat (d : Byte) : (glyphAddr d).toNat = d.toNat * 5 := by
  have hfits : d.toNat * 5 < 2 ^ 16 := by omega
  exact (BitVec.toNat_ofNat _ _).trans (Nat.mod_eq_of_lt hfits)

/-! ## The statement -/

/-- Settles O24: both instructions are one write to I, of NNN or of the glyph's address. -/
theorem indexLoadsWriteOnlyI : Obligations.IndexLoadsWriteOnlyI :=
  fun nnn x s => ⟨⟨_, rfl, rfl, s.withI_sameExcept nnn⟩,
    ⟨_, rfl, glyphAddr_toNat (s.getV x), s.withI_sameExcept (glyphAddr (s.getV x))⟩⟩

end Sys2Proof.Machine
end

section
/-! The timer moves (R282, R284, R285): the frames of a write to DT and of a write to ST, and the three moves. -/

namespace Sys2Proof.Machine

/-! ## The frame of a timer write -/

theorem State.withDt_sameExcept (s : State) (b : Byte) : SameExcept [.dt] s { s with dt := b } := by
  intro f hf
  cases f with
  | dt => simp at hf
  | mem | v | stack | fb | key => exact fun _ => rfl
  | _ => rfl

theorem State.withSt_sameExcept (s : State) (b : Byte) : SameExcept [.st] s { s with st := b } := by
  intro f hf
  cases f with
  | st => simp at hf
  | mem | v | stack | fb | key => exact fun _ => rfl
  | _ => rfl

/-! ## The statement -/

/-- Settles O32: each move is one write, of DT to a register or of a register to DT or to ST. -/
theorem timerMovesWriteOnlyTheirDestination : Obligations.TimerMovesWriteOnlyTheirDestination :=
  fun x s => ⟨⟨_, rfl, s.setV_writesOnly x s.dt⟩, ⟨_, rfl, rfl, s.withDt_sameExcept (s.getV x)⟩,
    ⟨_, rfl, rfl, s.withSt_sameExcept (s.getV x)⟩⟩

end Sys2Proof.Machine
end

section
/-! Loading an image (R352, R353): several bytes written to memory, read at one of them and outside them, the frame of
a write to memory, and the load. -/

namespace Sys2Proof.Machine

/-! ## Several bytes written to memory -/

theorem Memory.read_writeAll_inside {m : Memory} (h : m.wf = true) {a : Nat} {bs : List Byte}
    (ha : a + bs.length ≤ Config.memSize) {k : Nat} (hk : k < bs.length) :
    (m.writeAll a bs).read (a + k) = bs[k] := by
  rw [Memory.read_writeAll h ha, dif_pos ⟨by omega, by omega⟩]
  simp only [Nat.add_sub_cancel_left]

theorem Memory.read_writeAll_outside {m : Memory} (h : m.wf = true) {a : Nat} {bs : List Byte}
    (ha : a + bs.length ≤ Config.memSize) {c : Nat} (hc : c < a ∨ a + bs.length ≤ c) :
    (m.writeAll a bs).read c = m.read c := by
  rw [Memory.read_writeAll h ha, dif_neg (by omega)]

theorem State.withMem_sameExcept (s : State) (m : Memory) : SameExcept [.mem] s { s with mem := m } := by
  intro f hf
  cases f with
  | mem => simp at hf
  | v | stack | fb | key => exact fun _ => rfl
  | _ => rfl

/-- The loadable region ends where memory does: an image that `load` accepts is written to addresses that exist (R73). -/
theorem progBase_add_le_memSize {n : Nat} (h : n ≤ Config.progMax) : Config.progBase + n ≤ Config.memSize :=
  Nat.add_le_add_left h Config.progBase

/-! ## The statement -/

/-- Settles O58: an image that fits is one write of its bytes from 0x200, all of them to addresses that exist. -/
theorem loadCopiesAnImageThatFits : Obligations.LoadCopiesAnImageThatFits := by
  refine fun s image hwf => ⟨s.load_tooLarge, fun hl => ?_⟩
  have hfits : Config.progBase + image.length ≤ Config.memSize := progBase_add_le_memSize hl
  exact ⟨_, s.load_ok hl, fun _ hk => Memory.read_writeAll_inside hwf hfits hk,
    fun _ hb => Memory.read_writeAll_outside hwf hfits hb, s.withMem_sameExcept _⟩

end Sys2Proof.Machine
end

section
/-! Encoding and decoding (R100 to R114): the word of an instruction decodes to it, a decoded word is the instruction's
own but for the ignored bits, a word of a row decodes to that row, and the words that are no instruction. -/

namespace Sys2Proof.Machine

/-! ## The word of an instruction -/

/-- Settles O1: the fields of the encoded word are the operands, and its group and sub-code select the instruction. -/
theorem decodeOfEncodeIsTheInstruction : Obligations.DecodeOfEncodeIsTheInstruction := by
  intro i hwf
  cases i with
  | cls => rfl
  | ret => rfl
  | jp nnn => rw [encode, decode_group1 (fieldG_encodeFA ..), fieldNNN_encodeFA _ hwf]
  | call nnn => rw [encode, decode_group2 (fieldG_encodeFA ..), fieldNNN_encodeFA _ hwf]
  | seImm x nn => rw [encode, decode_group3 (fieldG_encodeFI ..), fieldX_encodeFI, fieldNN_encodeFI]
  | sneImm x nn => rw [encode, decode_group4 (fieldG_encodeFI ..), fieldX_encodeFI, fieldNN_encodeFI]
  | seReg x y => rw [encode, decode_group5 (fieldG_encodeFR ..), fieldX_encodeFR, fieldY_encodeFR]
  | ldImm x nn => rw [encode, decode_group6 (fieldG_encodeFI ..), fieldX_encodeFI, fieldNN_encodeFI]
  | addImm x nn => rw [encode, decode_group7 (fieldG_encodeFI ..), fieldX_encodeFI, fieldNN_encodeFI]
  | sneReg x y => rw [encode, decode_group9 (fieldG_encodeFR ..), fieldX_encodeFR, fieldY_encodeFR]
  | ldI nnn => rw [encode, decode_groupA (fieldG_encodeFA ..), fieldNNN_encodeFA _ hwf]
  | jpV0 nnn => rw [encode, decode_groupB (fieldG_encodeFA ..), fieldNNN_encodeFA _ hwf]
  | rnd x nn => rw [encode, decode_groupC (fieldG_encodeFI ..), fieldX_encodeFI, fieldNN_encodeFI]
  | drw x y n =>
    have hn : n < 16 := of_decide_eq_true hwf
    rw [encode, decode_groupD (fieldG_encodeFR ..), fieldX_encodeFR, fieldY_encodeFR, fieldN_encodeFR,
      BitVec.toNat_ofNat, Nat.mod_eq_of_lt hn]
  | ldReg | or | and | xor | addReg | sub | shr | subn | shl => simp [encode, decode_group8, decodeGroup8]
  | skp | sknp => simp [encode, decode_groupE, decodeGroupE]
  | ldVxDt | ldVxK | ldDtVx | ldStVx | addIVx | ldFVx | ldBVx | ldMemVx | ldVxMem =>
    simp [encode, decode_groupF, decodeGroupF]

/-! ## A word is made of its fields (R107) -/

theorem encodeFA_fields {w : Word} {g : BitVec 4} (hg : fieldG w = g.toNat) : encodeFA g (fieldNNN w) = w := by
  rw [fieldG_eq] at hg
  apply BitVec.eq_of_toNat_eq
  rw [toNat_encodeFA, fieldNNN_eq]
  omega

theorem encodeFI_fields {w : Word} {g : BitVec 4} (hg : fieldG w = g.toNat) :
    encodeFI g (fieldX w) (fieldNN w) = w := by
  rw [fieldG_eq] at hg
  apply BitVec.eq_of_toNat_eq
  rw [toNat_encodeFI, fieldX_eq, fieldNN_eq]
  omega

theorem encodeFS_fields {w : Word} {g : BitVec 4} {sub : Byte} (hg : fieldG w = g.toNat)
    (hsub : (fieldNN w).toNat = sub.toNat) : encodeFS g (fieldX w) sub = w := by
  rw [← BitVec.eq_of_toNat_eq hsub]
  exact encodeFI_fields hg

theorem encodeFR_fields {w : Word} {g n : BitVec 4} (hg : fieldG w = g.toNat) (hn : fieldN w = n.toNat) :
    encodeFR g (fieldX w) (fieldY w) n = w := by
  rw [fieldG_eq] at hg
  rw [fieldN_eq] at hn
  apply BitVec.eq_of_toNat_eq
  rw [toNat_encodeFR, fieldX_eq, fieldY_eq]
  omega

theorem fieldN_toNat (w : Word) : fieldN w = (BitVec.ofNat 4 (fieldN w)).toNat := by
  rw [BitVec.toNat_ofNat, fieldN_eq]
  omega

/-! ## The ignored bits (R111, R220, R222) -/

theorem encodeFR_ignoring_n (g : BitVec 4) (x y : Reg) (n : BitVec 4) :
    encodeFR g x y n &&& 0xFFF0#16 = encodeFR g x y 0 := by
  change (((g ++ (BitVec.ofFin x : BitVec 4)) ++ (BitVec.ofFin y : BitVec 4)) ++ n) &&& (0xFFF#12 ++ 0x0#4) = _
  rw [BitVec.and_append, show ∀ a : BitVec 12, a &&& 0xFFF#12 = a from fun _ => BitVec.and_allOnes, BitVec.and_zero]
  rfl

theorem encodeFR_ignoring_y (g : BitVec 4) (x y : Reg) (n : BitVec 4) :
    encodeFR g x y n &&& 0xFF0F#16 = encodeFR g x 0 n := by
  change (((g ++ (BitVec.ofFin x : BitVec 4)) ++ (BitVec.ofFin y : BitVec 4)) ++ n) &&&
    ((0xFF#8 ++ 0x0#4) ++ 0xF#4) = _
  rw [BitVec.and_append, BitVec.and_append, show ∀ a : BitVec 8, a &&& 0xFF#8 = a from fun _ => BitVec.and_allOnes,
    BitVec.and_zero, show n &&& 0xF#4 = n from BitVec.and_allOnes]
  rfl

theorem and_allBits (w : Word) : w &&& 0xFFFF = w := BitVec.and_allOnes

/-! ## A decoded word is its instruction's own (R107, R108) -/

theorem encode_of_decodeGroup8 {w : Word} {i : Instr} (hg : fieldG w = 8) (h : decodeGroup8 w = .instr i) :
    w &&& UsedBits i = encode i := by
  have word (n : BitVec 4) (hn : fieldN w = n.toNat) : w = encodeFR 8 (fieldX w) (fieldY w) n :=
    (encodeFR_fields hg hn).symm
  unfold decodeGroup8 at h
  split at h <;> cases h
  case h_7 hn => exact (congrArg (· &&& _) (word 6 hn)).trans (encodeFR_ignoring_y ..)
  case h_9 hn => exact (congrArg (· &&& _) (word 14 hn)).trans (encodeFR_ignoring_y ..)
  all_goals exact (and_allBits w).trans (word _ ‹_›)

theorem encode_of_decodeGroupE {w : Word} {i : Instr} (hg : fieldG w = 14) (h : decodeGroupE w = .instr i) :
    w &&& UsedBits i = encode i := by
  unfold decodeGroupE at h
  split at h <;> cases h
  all_goals exact (and_allBits w).trans (encodeFS_fields hg ‹_›).symm

theorem encode_of_decodeGroupF {w : Word} {i : Instr} (hg : fieldG w = 15) (h : decodeGroupF w = .instr i) :
    w &&& UsedBits i = encode i := by
  unfold decodeGroupF at h
  split at h <;> cases h
  all_goals exact (and_allBits w).trans (encodeFS_fields hg ‹_›).symm

/-- Settles O2: what decodes is well formed, and a word is made of its fields, which are the operands. -/
theorem decodedWordIsItsEncodingUpToIgnoredBits : Obligations.DecodedWordIsItsEncodingUpToIgnoredBits := by
  intro w i hne h
  refine ⟨decode_wf h, ?_⟩
  have hlt := fieldG_lt w
  match hg : fieldG w, hlt with
  | 0, _ => exact absurd hg hne
  | 8, _ => exact encode_of_decodeGroup8 hg (decode_group8 hg ▸ h)
  | 14, _ => exact encode_of_decodeGroupE hg (decode_groupE hg ▸ h)
  | 15, _ => exact encode_of_decodeGroupF hg (decode_groupF hg ▸ h)
  | 1, _ | 2, _ | 10, _ | 11, _ =>
    rw [decode, decodeWith, hg] at h
    cases h
    exact (and_allBits w).trans (encodeFA_fields hg).symm
  | 3, _ | 4, _ | 6, _ | 7, _ | 12, _ =>
    rw [decode, decodeWith, hg] at h
    cases h
    exact (and_allBits w).trans (encodeFI_fields hg).symm
  | 5, _ | 9, _ =>
    rw [decode, decodeWith, hg] at h
    cases h
    exact (congrArg (· &&& _) (encodeFR_fields hg (fieldN_toNat w)).symm).trans (encodeFR_ignoring_n ..)
  | 13, _ =>
    cases (decode_groupD hg).symm.trans h
    exact (and_allBits w).trans (encodeFR_fields hg (fieldN_toNat w)).symm
  | n + 16, hlt => omega

/-! ## The bits of a row (R108) -/

/-- A word's bits under a mask tell its group when the mask covers the group. -/
theorem fieldG_of_and {w m p : Word} {g : Nat} (h : w &&& m = p) (hm : m.extractLsb' 12 4 = 0xF ∧ fieldG p = g) :
    fieldG w = g := by
  obtain ⟨hm, rfl⟩ := hm
  rw [← h, fieldG, fieldG, BitVec.extractLsb'_and, hm]
  exact congrArg BitVec.toNat BitVec.and_allOnes.symm

theorem fieldN_of_and {w m p : Word} (h : w &&& m = p) (hm : m.extractLsb' 0 4 = 0xF) : fieldN w = fieldN p := by
  rw [← h, fieldN, fieldN, BitVec.extractLsb'_and, hm]
  exact congrArg BitVec.toNat BitVec.and_allOnes.symm

theorem fieldNN_of_and {w m p : Word} (h : w &&& m = p) (hm : m.extractLsb' 0 8 = 0xFF) :
    fieldNN w = fieldNN p := by
  rw [← h, fieldNN, fieldNN, BitVec.extractLsb'_and, hm]
  exact BitVec.and_allOnes.symm

/-- A word that matches the row of an instruction decodes to an instruction of that row (R108). -/
theorem decode_of_row_matches {w : Word} (i : Instr) (h : i.row.matches w = true) :
    ∃ j, decode w = .instr j ∧ j.row = i.row := by
  replace h : w &&& i.row.mask = i.row.pattern := beq_iff_eq.mp h
  cases i with dsimp only [Instr.row] at h
  | cls => exact ⟨.cls, by rw [← and_allBits w]; exact congrArg decode h, rfl⟩
  | ret => exact ⟨.ret, by rw [← and_allBits w]; exact congrArg decode h, rfl⟩
  | jp => exact ⟨_, decode_group1 (fieldG_of_and h (by decide)), rfl⟩
  | call => exact ⟨_, decode_group2 (fieldG_of_and h (by decide)), rfl⟩
  | seImm => exact ⟨_, decode_group3 (fieldG_of_and h (by decide)), rfl⟩
  | sneImm => exact ⟨_, decode_group4 (fieldG_of_and h (by decide)), rfl⟩
  | seReg => exact ⟨_, decode_group5 (fieldG_of_and h (by decide)), rfl⟩
  | ldImm => exact ⟨_, decode_group6 (fieldG_of_and h (by decide)), rfl⟩
  | addImm => exact ⟨_, decode_group7 (fieldG_of_and h (by decide)), rfl⟩
  | sneReg => exact ⟨_, decode_group9 (fieldG_of_and h (by decide)), rfl⟩
  | ldI => exact ⟨_, decode_groupA (fieldG_of_and h (by decide)), rfl⟩
  | jpV0 => exact ⟨_, decode_groupB (fieldG_of_and h (by decide)), rfl⟩
  | rnd => exact ⟨_, decode_groupC (fieldG_of_and h (by decide)), rfl⟩
  | drw => exact ⟨_, decode_groupD (fieldG_of_and h (by decide)), rfl⟩
  | ldReg | or | and | xor | addReg | sub | shr | subn | shl =>
    rw [decode_group8 (fieldG_of_and h (by decide)), decodeGroup8, fieldN_of_and h (by decide)]
    exact ⟨_, rfl, rfl⟩
  | skp | sknp =>
    rw [decode_groupE (fieldG_of_and h (by decide)), decodeGroupE, fieldNN_of_and h (by decide)]
    exact ⟨_, rfl, rfl⟩
  | ldVxDt | ldVxK | ldDtVx | ldStVx | addIVx | ldFVx | ldBVx | ldMemVx | ldVxMem =>
    rw [decode_groupF (fieldG_of_and h (by decide)), decodeGroupF, fieldNN_of_and h (by decide)]
    exact ⟨_, rfl, rfl⟩

/-- Settles O3: the decoder finds the row of a word, so that two rows of one word are the same. -/
theorem wordOfARowDecodesToThatRowOnly : Obligations.WordOfARowDecodesToThatRowOnly := by
  have found {w : Word} {r : OpcodeRow} (hr : r ∈ opcodeMap) (h : r.matches w = true) :
      ∃ i, decode w = .instr i ∧ i.row = r := by
    obtain ⟨i, _, rfl⟩ := List.mem_map.mp hr
    exact decode_of_row_matches i h
  refine ⟨rfl, fun w r hr h => ⟨found hr h, fun r' hr' h' => ?_⟩⟩
  obtain ⟨i, hi, rfl⟩ := found hr h
  obtain ⟨j, hj, rfl⟩ := found hr' h'
  cases hi.symm.trans hj
  rfl

/-! ## The words that are no instruction (R110, R112) -/

theorem decodeGroup8_unknown_iff (w : Word) :
    decodeGroup8 w = .unknown ↔ fieldN w ∈ [0x8, 0x9, 0xA, 0xB, 0xC, 0xD, 0xF] := by
  have hlt : fieldN w < 16 := of_decide_eq_true (fieldN_fits w)
  rw [decodeGroup8]
  interval_cases fieldN w <;> simp

theorem decodeGroupE_unknown_iff (w : Word) : decodeGroupE w = .unknown ↔ fieldNN w ∉ [0x9E, 0xA1] := by
  unfold decodeGroupE
  split <;> simp_all [← BitVec.toNat_inj]

theorem decodeGroupF_unknown_iff (w : Word) :
    decodeGroupF w = .unknown ↔ fieldNN w ∉ [0x07, 0x0A, 0x15, 0x18, 0x1E, 0x29, 0x33, 0x55, 0x65] := by
  unfold decodeGroupF
  split <;> simp_all [← BitVec.toNat_inj]


theorem zeroGroup_unknown_iff (sel : ZeroGroupSelect) (w : Word) :
    zeroGroup sel w = .unknown ↔ sel = .exact ∨ (sel = .lowByte ∧ fieldNN w ≠ 0xE0 ∧ fieldNN w ≠ 0xEE) := by
  cases sel with
  | refuse => simp [zeroGroup]
  | lowNibble => unfold zeroGroup; split_ifs <;> simp
  | lowByte => unfold zeroGroup; split_ifs <;> simp_all
  | exact => simp [zeroGroup]

theorem decodeGroup0_open {sel : ZeroGroupSelect} {w : Word} (h0 : w ≠ 0x00E0) (hE : w ≠ 0x00EE)
    (hn : fieldN w = 0x0 ∨ fieldN w = 0xE) : decodeGroup0 sel w = zeroGroup sel w := by
  rw [decodeGroup0, if_neg h0, if_neg hE, if_neg (by omega)]

theorem decodeGroup0_low {w : Word} (sel : ZeroGroupSelect) (h0 : fieldN w ≠ 0x0) (hE : fieldN w ≠ 0xE) :
    decodeGroup0 sel w = .unknown := by
  have hcls : w ≠ 0x00E0 := by rintro rfl; exact h0 rfl
  have hret : w ≠ 0x00EE := by rintro rfl; exact hE rfl
  rw [decodeGroup0, if_neg hcls, if_neg hret, if_pos ⟨h0, hE⟩]

theorem decodeGroup0_unknown_iff (sel : ZeroGroupSelect) (w : Word) :
    decodeGroup0 sel w = .unknown ↔ (fieldN w ≠ 0x0 ∧ fieldN w ≠ 0xE) ∨
      ((fieldN w = 0x0 ∨ fieldN w = 0xE) ∧ w ≠ 0x00E0 ∧ w ≠ 0x00EE ∧
        (sel = .exact ∨ (sel = .lowByte ∧ fieldNN w ≠ 0xE0 ∧ fieldNN w ≠ 0xEE))) := by
  by_cases hn : fieldN w = 0x0 ∨ fieldN w = 0xE
  · by_cases hcls : w = 0x00E0
    · simp [hcls, decodeGroup0, fieldN]
    by_cases hret : w = 0x00EE
    · simp [hret, decodeGroup0, fieldN]
    rw [decodeGroup0_open hcls hret hn, zeroGroup_unknown_iff]
    tauto
  · obtain ⟨h0, hE⟩ := not_or.mp hn
    simp [decodeGroup0_low sel h0 hE, h0, hE]

/-- Settles O4: each group has its own list; the groups that no list names hold instructions only. -/
theorem unknownWordsAreExactlyTheListedOnes : Obligations.UnknownWordsAreExactlyTheListedOnes := by
  intro w
  have hlt := fieldG_lt w
  match hg : fieldG w, hlt with
  | 0, _ => rw [decode_group0 hg, decodeGroup0_unknown_iff]; simp
  | 8, _ => rw [decode_group8 hg, decodeGroup8_unknown_iff]; simp
  | 14, _ => rw [decode_groupE hg, decodeGroupE_unknown_iff]; simp
  | 15, _ => rw [decode_groupF hg, decodeGroupF_unknown_iff]; simp
  | 1, _ | 2, _ | 3, _ | 4, _ | 5, _ | 6, _ | 7, _ | 9, _ | 10, _ | 11, _ | 12, _ | 13, _ =>
    simp [decode, decodeWith, hg]
  | n + 16, hlt => omega

/-! ## Group 0x0 (R110) -/

theorem decodeWith_group0 {w : Word} (sel : ZeroGroupSelect) (h : fieldG w = 0) :
    decodeWith sel w = decodeGroup0 sel w := by
  rw [decodeWith, h]
  rfl

theorem fieldN_of_fieldNN {w : Word} {b : Byte} (h : fieldNN w = b) : fieldN w = b.toNat % 16 := by
  rw [← h, fieldNN_eq, fieldN_eq]
  omega

/-- Settles O5: the two words come before the setting, and an open word is what the setting says of its low nibble or
its low byte. -/
theorem zeroGroupWordsFollowTheTable : Obligations.ZeroGroupWordsFollowTheTable := by
  refine ⟨fun sel => ⟨rfl, rfl⟩, fun w hg hcls hret => ⟨fun hn => ?_, fun hn => ?_, fun h0 hE sel => ?_⟩⟩
  · have hEE : fieldNN w ≠ 0xEE := fun h => absurd (hn.symm.trans (fieldN_of_fieldNN h)) (by decide)
    simp only [decodeWith_group0 _ hg, decodeGroup0_open hcls hret (.inl hn), zeroGroup, hn, hEE, if_true, if_false,
      and_self]
  · have hE0 : fieldNN w ≠ 0xE0 := fun h => absurd (hn.symm.trans (fieldN_of_fieldNN h)) (by decide)
    simp only [decodeWith_group0 _ hg, decodeGroup0_open hcls hret (.inr hn), zeroGroup, hn, hE0, if_false,
      show ¬ 0xE = 0x0 by decide, and_self]
  · rw [decodeWith_group0 sel hg, decodeGroup0_low sel h0 hE]

/-- Settles O6: the decoder, run on each word. -/
theorem wordsOfTheSpecsExamplesDecode : Obligations.WordsOfTheSpecsExamplesDecode := by
  unfold Obligations.WordsOfTheSpecsExamplesDecode
  decide

end Sys2Proof.Machine
end

section
/-! What each instruction can change, in one table, and the rules about all instructions that follow from it
(R32, R36, R41 to R50). -/

namespace Sys2Proof.Machine

/-! ## Frames as updates -/

/-- `s` with the listed elements taken from `t`: what a change of these elements alone can give. -/
def State.withFieldsOf (s : State) (fs : List Field) (t : State) : State where
  mem := if .mem ∈ fs then t.mem else s.mem
  v := if .v ∈ fs then t.v else s.v
  i := if .i ∈ fs then t.i else s.i
  pc := if .pc ∈ fs then t.pc else s.pc
  stack := if .stack ∈ fs then t.stack else s.stack
  sp := if .sp ∈ fs then t.sp else s.sp
  dt := if .dt ∈ fs then t.dt else s.dt
  st := if .st ∈ fs then t.st else s.st
  fb := if .fb ∈ fs then t.fb else s.fb
  redraw := if .redraw ∈ fs then t.redraw else s.redraw
  key := if .key ∈ fs then t.key else s.key
  klatch := if .klatch ∈ fs then t.klatch else s.klatch
  kflag := if .kflag ∈ fs then t.kflag else s.kflag
  jump := if .jump ∈ fs then t.jump else s.jump
  await := if .await ∈ fs then t.await else s.await
  halt := if .halt ∈ fs then t.halt else s.halt
  refused := if .refused ∈ fs then t.refused else s.refused
  op := if .op ∈ fs then t.op else s.op
  events := if .events ∈ fs then t.events else s.events
  draws := if .draws ∈ fs then t.draws else s.draws

/-- A state that takes only the listed elements from elsewhere agrees in all others. -/
theorem sameExcept_of_withFieldsOf {fs : List Field} {s t : State} (h : t = s.withFieldsOf fs t) :
    SameExcept fs s t := by
  intro f hf
  rw [h]
  cases f <;> simp [Field.same, State.withFieldsOf, hf, State.getV]

/-! ## The table -/

/-- The elements of the state that an instruction writes when it completes (R34, R36, R41 to R52). -/
def Instr.changes : Instr → List Field
  | .cls => [.fb, .redraw]
  | .ret | .call _ => [.stack, .sp, .pc, .jump]
  | .jp _ | .jpV0 _ => [.pc, .jump]
  | .seImm _ _ | .sneImm _ _ | .seReg _ _ | .sneReg _ _ | .skp _ | .sknp _ => [.pc]
  | .ldImm _ _ | .addImm _ _ | .ldReg _ _ | .or _ _ | .and _ _ | .xor _ _ | .ldVxDt _ => [.v]
  | .addReg _ _ | .sub _ _ | .shr _ | .subn _ _ | .shl _ => [.v]
  | .rnd _ _ => [.v, .draws]
  | .drw _ _ _ => [.v, .fb, .redraw]
  | .ldI _ | .ldFVx _ => [.i]
  | .addIVx _ | .ldVxMem _ => [.v, .i]
  | .ldBVx _ => [.mem]
  | .ldMemVx _ => [.mem, .i]
  | .ldVxK _ => [.v, .kflag, .await, .jump]
  | .ldDtVx _ => [.dt]
  | .ldStVx _ => [.st]

theorem State.skipIf_frame (s : State) (c : Bool) : s.skipIf c = s.withFieldsOf [.pc] (s.skipIf c) := by
  cases c <;> rfl

theorem State.flagged_frame (s : State) (o : VfWriteOrder) (x y : Reg) (flag : Byte → Byte → Bool)
    (result : Byte → Byte → Byte) :
    s.flagged o x y flag result = s.withFieldsOf [.v] (s.flagged o x y flag result) := by
  cases o <;> rfl

/-- An instruction raises a fatal condition and changes nothing else, or writes only what the table lists. -/
theorem exec_frame {i : Instr} {s t : State} (h : exec i s = .next t) :
    (∃ c, t = s.raise c) ∨ t = s.withFieldsOf (Instr.changes i) t := by
  cases i with
  | ret =>
    rcases exec_ret_cases h with ⟨_, rfl⟩ | ⟨_, rfl⟩
    · exact .inr rfl
    · exact .inl ⟨_, rfl⟩
  | call nnn =>
    rcases exec_call_cases h with ⟨_, rfl⟩ | ⟨_, rfl⟩
    · exact .inr rfl
    · exact .inl ⟨_, rfl⟩
  | drw x y n =>
    rcases exec_drw_cases h with ⟨_, rfl⟩ | ⟨_, rfl⟩
    · exact .inr rfl
    · exact .inl ⟨_, rfl⟩
  | skp x =>
    rcases exec_skp_cases h with ⟨_, rfl⟩ | ⟨_, rfl⟩
    · exact .inr (s.skipIf_frame _)
    · exact .inl ⟨_, rfl⟩
  | sknp x =>
    rcases exec_sknp_cases h with ⟨_, rfl⟩ | ⟨_, rfl⟩
    · exact .inr (s.skipIf_frame _)
    · exact .inl ⟨_, rfl⟩
  | addIVx x =>
    rcases exec_addIVx_cases h with ⟨_, rfl⟩ | ⟨_, rfl⟩
    · exact .inr rfl
    · exact .inl ⟨_, rfl⟩
  | ldBVx x =>
    rcases exec_ldBVx_cases h with ⟨_, rfl⟩ | ⟨_, rfl⟩
    · exact .inr rfl
    · exact .inl ⟨_, rfl⟩
  | ldMemVx x =>
    rcases exec_ldMemVx_cases h with ⟨_, rfl⟩ | ⟨_, rfl⟩
    · exact .inr rfl
    · exact .inl ⟨_, rfl⟩
  | ldVxMem x =>
    rcases exec_ldVxMem_cases h with ⟨_, rfl⟩ | ⟨_, rfl⟩
    · exact .inr rfl
    · exact .inl ⟨_, rfl⟩
  | ldVxK x => rcases exec_ldVxK_cases h with ⟨_, rfl⟩ | ⟨_, rfl⟩ <;> exact .inr rfl
  | seImm | sneImm | seReg | sneReg => cases h; exact .inr (s.skipIf_frame _)
  | addReg | sub | shr | subn | shl => cases h; exact .inr (s.flagged_frame _ _ _ _ _)
  | _ => cases h; exact .inr rfl

/-- An element that the table does not list is as it was, whether the instruction completed or raised. -/
theorem exec_keeps {α : Type} {get : State → α} {f : Field} (hraise : ∀ s c, get (State.raise s c) = get s)
    (hget : ∀ {fs s t}, f ∉ fs → get (State.withFieldsOf s fs t) = get s) {i : Instr} {s t : State}
    (h : exec i s = .next t) (hf : f ∉ Instr.changes i) : get t = get s := by
  rcases exec_frame h with ⟨c, rfl⟩ | ht
  · exact hraise s c
  · exact (congrArg get ht).trans (hget hf)

section
variable {i : Instr} {s t : State} (h : exec i s = .next t)
include h

theorem exec_mem (hf : .mem ∉ Instr.changes i) : t.mem = s.mem :=
  exec_keeps (fun _ _ => rfl) (fun hf => if_neg hf) h hf

theorem exec_v (hf : .v ∉ Instr.changes i) : t.v = s.v :=
  exec_keeps (fun _ _ => rfl) (fun hf => if_neg hf) h hf

theorem exec_i (hf : .i ∉ Instr.changes i) : t.i = s.i :=
  exec_keeps (fun _ _ => rfl) (fun hf => if_neg hf) h hf

theorem exec_pc (hf : .pc ∉ Instr.changes i) : t.pc = s.pc :=
  exec_keeps (fun _ _ => rfl) (fun hf => if_neg hf) h hf

theorem exec_stack (hf : .stack ∉ Instr.changes i) : t.stack = s.stack :=
  exec_keeps (fun _ _ => rfl) (fun hf => if_neg hf) h hf

theorem exec_sp (hf : .sp ∉ Instr.changes i) : t.sp = s.sp :=
  exec_keeps (fun _ _ => rfl) (fun hf => if_neg hf) h hf

theorem exec_dt (hf : .dt ∉ Instr.changes i) : t.dt = s.dt :=
  exec_keeps (fun _ _ => rfl) (fun hf => if_neg hf) h hf

theorem exec_st (hf : .st ∉ Instr.changes i) : t.st = s.st :=
  exec_keeps (fun _ _ => rfl) (fun hf => if_neg hf) h hf

theorem exec_fb (hf : .fb ∉ Instr.changes i) : t.fb = s.fb :=
  exec_keeps (fun _ _ => rfl) (fun hf => if_neg hf) h hf

theorem exec_redraw (hf : .redraw ∉ Instr.changes i) : t.redraw = s.redraw :=
  exec_keeps (fun _ _ => rfl) (fun hf => if_neg hf) h hf

theorem exec_await (hf : .await ∉ Instr.changes i) : t.await = s.await :=
  exec_keeps (fun _ _ => rfl) (fun hf => if_neg hf) h hf

end

/-! ## Registers (the table of R34) -/

theorem State.flagged_getV_other (s : State) (o : VfWriteOrder) (x y : Reg) (flag : Byte → Byte → Bool)
    (result : Byte → Byte → Byte) {r : Reg} (hr : ¬ (r = x ∨ r = vF)) :
    (s.flagged o x y flag result).getV r = s.getV r := by
  obtain ⟨hx, hf⟩ := not_or.mp hr
  cases o with
  | flagFirst => rw [State.getV_flagged_flagFirst, if_neg hx, if_neg hf]
  | operandsFirst => rw [State.getV_flagged_operandsFirst, if_neg hf, if_neg hx]

theorem State.getV_ofFn (s : State) (f : Reg → Byte) (r : Reg) : { s with v := Vector.ofFn f }.getV r = f r :=
  Vector.getElem_ofFn r.isLt

/-- Settles O48: a register that an instruction writes is its destination or VF; all others have no register in the
table of changes. -/
theorem onlyTheTabledRegistersAreWritten : Obligations.OnlyTheTabledRegistersAreWritten := by
  intro i s t r h hr
  cases i with
  | ldImm | addImm | ldReg | or | and | xor | ldVxDt => cases h; exact s.getV_setV_other _ hr
  | rnd x nn => cases h; exact s.drawn.getV_setV_other _ hr
  | addReg | sub | shr | subn | shl => cases h; exact s.flagged_getV_other _ _ _ _ _ hr
  | drw x y n =>
    rcases exec_drw_cases h with ⟨_, rfl⟩ | ⟨_, rfl⟩
    · exact s.getV_setV_other _ hr
    · rfl
  | ldVxK x =>
    rcases exec_ldVxK_cases h with ⟨_, rfl⟩ | ⟨_, rfl⟩
    · exact s.getV_setV_other _ hr
    · rfl
  | addIVx x =>
    rcases exec_addIVx_cases h with ⟨_, rfl⟩ | ⟨_, rfl⟩
    · exact s.getV_setV_other _ hr
    · rfl
  | ldVxMem x =>
    rcases exec_ldVxMem_cases h with ⟨_, rfl⟩ | ⟨_, rfl⟩
    · exact (s.getV_ofFn _ r).trans (if_neg hr)
    · rfl
  | _ => exact congrArg (·[r]) (exec_v h (by simp [Instr.changes]))

/-! ## The statements about one element each -/

/-- Settles O50: the other instructions do not list I. -/
theorem indexChangesOnlyByItsInstructions : Obligations.IndexChangesOnlyByItsInstructions := by
  intro i s t h hne
  have hi : .i ∈ Instr.changes i := not_imp_comm.mp (exec_i h) hne
  cases i <;> simp [Instr.changes] at hi ⊢

/-- Settles O53: no other instruction lists DT or ST. -/
theorem timersChangeOnlyByTheirInstructions : Obligations.TimersChangeOnlyByTheirInstructions := by
  refine fun i s t h => ⟨fun hne => ?_, fun hne => ?_⟩
  · have hdt : .dt ∈ Instr.changes i := not_imp_comm.mp (exec_dt h) hne
    cases i <;> simp [Instr.changes] at hdt ⊢
  · have hst : .st ∈ Instr.changes i := not_imp_comm.mp (exec_st h) hne
    cases i <;> simp [Instr.changes] at hst ⊢

/-- Settles O52: no other instruction lists the stack or SP, and a push or a pop that raises changes neither. -/
theorem stackChangesOnlyByCallAndReturn : Obligations.StackChangesOnlyByCallAndReturn := by
  intro i s t h hne
  have hstack : .stack ∈ Instr.changes i ∨ .sp ∈ Instr.changes i :=
    hne.imp (not_imp_comm.mp (exec_stack h)) (not_imp_comm.mp (exec_sp h))
  cases i with
  | call nnn =>
    rcases exec_call_cases h with ⟨_, rfl⟩ | ⟨_, rfl⟩
    · exact .inl ⟨⟨nnn, rfl⟩, rfl⟩
    · simp at hne
  | ret =>
    rcases exec_ret_cases h with ⟨hsp, rfl⟩ | ⟨_, rfl⟩
    · exact .inr ⟨rfl, Nat.sub_add_cancel (Nat.pos_of_ne_zero hsp)⟩
    · simp at hne
  | _ => simp [Instr.changes] at hstack

theorem Memory.read_writeAll_ne {m : Memory} (h : m.wf = true) {a : Nat} {bs : List Byte}
    (ha : a + bs.length ≤ Config.memSize) {c : Nat} (hne : (m.writeAll a bs).read c ≠ m.read c) :
    a ≤ c ∧ c < a + bs.length := by
  by_contra hc
  exact hne (Memory.read_writeAll_outside h ha (by omega))

/-- The number of registers V0 to Vx. -/
theorem length_registersUpTo (v : Vector Byte 16) (x : Reg) : (v.toList.take (x.val + 1)).length = x.val + 1 := by
  rw [List.length_take, Vector.length_toList]
  omega

/-- Settles O54: the other instructions do not list memory, and a store that completes writes only bytes that exist. -/
theorem memoryChangesOnlyByTheTwoStores : Obligations.MemoryChangesOnlyByTheTwoStores := by
  intro i s t a hwf h hne
  have hmem : .mem ∈ Instr.changes i := not_not.mp fun hf => hne (congrArg (·.read a) (exec_mem h hf))
  cases i with
  | ldBVx x =>
    rcases exec_ldBVx_cases h with ⟨hfits, rfl⟩ | ⟨_, rfl⟩
    · obtain ⟨hlo, hhi⟩ := Memory.read_writeAll_ne hwf hfits hne
      exact ⟨hhi.trans_le hfits, hlo, .inl ⟨x, rfl, hhi⟩⟩
    · exact absurd rfl hne
  | ldMemVx x =>
    rcases exec_ldMemVx_cases h with ⟨hfits, rfl⟩ | ⟨_, rfl⟩
    · rw [← length_registersUpTo s.v x] at hfits
      obtain ⟨hlo, hhi⟩ := Memory.read_writeAll_ne hwf hfits hne
      exact ⟨hhi.trans_le hfits, hlo, .inr ⟨x, rfl, length_registersUpTo s.v x ▸ hhi⟩⟩
    · exact absurd rfl hne
  | _ => simp [Instr.changes] at hmem

/-! ## The end of a tick -/

@[simp] theorem State.finishTick_key (s : State) : s.finishTick.key = s.key := by
  rw [s.finishTick_eq]

@[simp] theorem State.afterExec_redraw (s : State) : s.afterExec.redraw = s.redraw := by
  unfold State.afterExec
  split_ifs <;> simp

@[simp] theorem State.afterExec_key (s : State) : s.afterExec.key = s.key := by
  unfold State.afterExec
  split_ifs <;> simp

@[simp] theorem State.afterExec_klatch (s : State) : s.afterExec.klatch = s.klatch := by
  unfold State.afterExec
  split_ifs <;> simp

theorem State.kflag_of_afterExec {s : State} (h : s.afterExec.kflag = true) : s.kflag = true := by
  unfold State.afterExec at h
  split_ifs at h
  · exact h
  · cases h

/-- Settles O51: the other instructions do not list FB or REDRAW, and step 1 clears REDRAW. -/
theorem displayChangesOnlyByClearAndDraw : Obligations.DisplayChangesOnlyByClearAndDraw := by
  refine ⟨fun i s t h hne => ?_, fun s t hr h hredraw => ?_⟩
  · have hfb : .fb ∈ Instr.changes i ∨ .redraw ∈ Instr.changes i :=
      hne.imp (not_imp_comm.mp (exec_fb h)) (not_imp_comm.mp (exec_redraw h))
    cases i <;> simp [Instr.changes] at hfb ⊢
  · rcases step_cases h with ⟨hstop, _⟩ | ⟨_, _, rfl⟩ | ⟨w, _, hw, ⟨i, u, hd, he, rfl⟩ | ⟨_, rfl⟩ | ⟨_, rfl⟩⟩
    · simp [hr] at hstop
    · cases hredraw
    · have hset : u.redraw ≠ (atExec s w).redraw := by simpa [atExec] using hredraw
      have hi : .redraw ∈ Instr.changes i := not_imp_comm.mp (exec_redraw he) hset
      refine ⟨w, hw, ?_⟩
      cases i <;> simp [Instr.changes, hd] at hi ⊢
    · simp [State.unknownWord] at hredraw
    · cases hredraw

/-- Settles O55: neither an instruction nor another step of the cycle writes KEY or KLATCH, or sets KFLAG. -/
theorem onlyTheHostWritesTheKeys : Obligations.OnlyTheHostWritesTheKeys := by
  intro s t h
  rcases step_cases h with ⟨_, rfl⟩ | ⟨_, _, rfl⟩ | ⟨w, _, _, ⟨i, u, _, he, rfl⟩ | ⟨_, rfl⟩ | ⟨_, rfl⟩⟩
  · exact ⟨rfl, rfl, id⟩
  · exact ⟨rfl, rfl, id⟩
  · rcases exec_cases he with ⟨c, rfl⟩ | hk
    · exact ⟨State.afterExec_key _, State.afterExec_klatch _, State.kflag_of_afterExec⟩
    · exact ⟨(State.afterExec_key u).trans hk.key, (State.afterExec_klatch u).trans hk.klatch,
        fun hu => hk.kflag (State.kflag_of_afterExec hu)⟩
  · exact ⟨State.finishTick_key _, State.finishTick_klatch _, fun hu => by cases hu⟩
  · exact ⟨rfl, rfl, id⟩

end Sys2Proof.Machine
end

section
/-! An instruction depends on no register but those the table of R34 says it reads: the shared operations from two
states that differ in registers only, and then each instruction. -/

namespace Sys2Proof.Machine

/-- `s` with another register file. -/
def State.withV (s : State) (v' : Vector Byte 16) : State := { s with v := v' }

/-! ## The shared operations from two states that differ in registers only -/

section
variable {s : State} {v' : Vector Byte 16}

theorem State.checkedAccess_twice {n : Nat} {t t' u u' : State} (h : s.checkedAccess n t = .next u)
    (h' : (s.withV v').checkedAccess n t' = .next u') :
    (u = t ∧ u' = t') ∨ ∃ c, u = s.raise c ∧ u' = (s.withV v').raise c := by
  rcases State.checkedAccess_cases h with ⟨hn, rfl⟩ | ⟨hn, rfl⟩
  · cases ((s.withV v').checkedAccess_next t' hn).symm.trans h'
    exact .inl ⟨rfl, rfl⟩
  · cases ((s.withV v').checkedAccess_raise t' hn.1 hn.2).symm.trans h'
    exact .inr ⟨_, rfl, rfl⟩

theorem State.withKey_twice {x : Reg} {k k' : Bool → State} {u u' : State}
    (hx : (s.withV v').getV x = s.getV x) (h : s.withKey x k = .next u)
    (h' : (s.withV v').withKey x k' = .next u') :
    (∃ b, u = k b ∧ u' = k' b) ∨ ∃ c, u = s.raise c ∧ u' = (s.withV v').raise c := by
  simp only [State.withKey, hx] at h'
  rcases State.withKey_cases h with ⟨hk, rfl⟩ | ⟨hk, rfl⟩
  · rw [dif_pos hk] at h'
    cases h'
    exact .inl ⟨_, rfl, rfl⟩
  · rw [dif_neg (by omega)] at h'
    cases h'
    exact .inr ⟨_, rfl, rfl⟩

theorem State.addIndex_twice {o : VfWriteOrder} {x : Reg} {u u' : State} (hx : (s.withV v').getV x = s.getV x)
    (h : s.addIndex o x = .next u) (h' : (s.withV v').addIndex o x = .next u') :
    (∃ b a, u = { s.setV vF b with i := a } ∧ u' = { (s.withV v').setV vF b with i := a }) ∨
      ∃ c, u = s.raise c ∧ u' = (s.withV v').raise c := by
  have haddend : (s.withV v').indexAddend o x = s.indexAddend o x := by
    cases o with
    | flagFirst => simp only [State.indexAddend, hx]; rfl
    | operandsFirst => exact hx
  simp only [State.addIndex, haddend, hx] at h'
  rcases State.addIndex_cases h with ⟨ha, rfl⟩ | ⟨ha, rfl⟩
  · cases (if_neg (Nat.not_lt.mpr ha)).symm.trans h'
    exact .inl ⟨_, _, rfl, rfl⟩
  · cases (if_pos ha).symm.trans h'
    exact .inr ⟨_, rfl, rfl⟩

/-- What LD [I] stores is decided by V0 to Vx. -/
theorem take_registers_congr {v v' : Vector Byte 16} {x : Reg} (h : ∀ r : Reg, r ≤ x → v'[r] = v[r]) :
    v'.toList.take (x.val + 1) = v.toList.take (x.val + 1) := by
  refine List.ext_getElem (by simp) fun k hk _ => ?_
  have hkx : k < x.val + 1 := (List.length_take ▸ hk : k < min _ _).trans_le (min_le_left ..)
  have hk16 : k < 16 := hkx.trans_le x.isLt
  simpa using h ⟨k, hk16⟩ (Nat.le_of_lt_succ hkx)

theorem State.skipIf_withV (s : State) (v' : Vector Byte 16) (c : Bool) :
    (s.withV v').skipIf c = (s.skipIf c).withV v' := by
  cases c <;> rfl

theorem State.flagged_withV (s : State) (v' : Vector Byte 16) (o : VfWriteOrder) (x y : Reg) (flag : Byte → Byte → Bool)
    (result : Byte → Byte → Byte) :
    (s.withV v').flagged o x y flag result =
      (s.flagged o x y flag result).withV ((s.withV v').flagged o x y flag result).v := by
  cases o <;> rfl

/-- The values that a flag-setting instruction writes come from its two operands alone. -/
theorem State.flagged_getV_congr {s' : State} {o : VfWriteOrder} {x y r : Reg} {flag : Byte → Byte → Bool}
    {result : Byte → Byte → Byte} (hx : s'.getV x = s.getV x) (hy : s'.getV y = s.getV y) (hr : r = x ∨ r = vF) :
    (s'.flagged o x y flag result).getV r = (s.flagged o x y flag result).getV r := by
  cases o with
  | flagFirst => rcases hr with rfl | rfl <;> simp only [State.getV_flagged_flagFirst, hx, hy, if_true]
  | operandsFirst => rcases hr with rfl | rfl <;> simp only [State.getV_flagged_operandsFirst, hx, hy, if_true]

end

/-! ## The two outcomes -/

/-- What R34 allows of an instruction from two states that differ only in registers it does not read: the outcomes
differ in registers only, and a register it may write is written alike or left alone by both. -/
def AgreeAfter (i : Instr) (s s' t t' : State) : Prop :=
  t' = t.withV t'.v ∧
    ∀ r, WritesReg i r → t'.getV r = t.getV r ∨ (t.getV r = s.getV r ∧ t'.getV r = s'.getV r)

section
variable {i : Instr} {s s' t t' : State} {v' : Vector Byte 16}

theorem AgreeAfter.raise (c : Fatal) : AgreeAfter i s (s.withV v') (s.raise c) ((s.withV v').raise c) :=
  ⟨rfl, fun _ _ => .inr ⟨rfl, rfl⟩⟩

theorem AgreeAfter.of_writesNone (h : t' = t.withV t'.v) (hi : ∀ r, ¬ WritesReg i r) :
    AgreeAfter i s s' t t' :=
  ⟨h, fun r hr => absurd hr (hi r)⟩

theorem AgreeAfter.of_writesOne (h : t' = t.withV t'.v) {x : Reg} (hi : ∀ r, WritesReg i r ↔ r = x)
    (hx : t'.getV x = t.getV x) : AgreeAfter i s s' t t' :=
  ⟨h, fun r hr => .inl ((hi r).mp hr ▸ hx)⟩

theorem AgreeAfter.skipIf {c c' : Bool} (hc : c' = c) (hi : ∀ r, ¬ WritesReg i r) :
    AgreeAfter i s (s.withV v') (s.skipIf c) ((s.withV v').skipIf c') := by
  subst hc
  exact .of_writesNone (s.skipIf_withV v' c' ▸ rfl) hi

theorem AgreeAfter.flagged {o : VfWriteOrder} {x y : Reg} {flag : Byte → Byte → Bool} {result : Byte → Byte → Byte}
    (hx : (s.withV v').getV x = s.getV x) (hy : (s.withV v').getV y = s.getV y)
    (hi : ∀ r, WritesReg i r ↔ r = x ∨ r = vF) :
    AgreeAfter i s (s.withV v') (s.flagged o x y flag result) ((s.withV v').flagged o x y flag result) :=
  ⟨State.flagged_withV _ _ o x y flag result, fun r hr => .inl (State.flagged_getV_congr hx hy ((hi r).mp hr))⟩

end

/-- Settles O49: every operand comes from a register that R34 lists as read, and every condition from another element
of the state or from such an operand. -/
theorem onlyTheTabledRegistersAreRead : Obligations.OnlyTheTabledRegistersAreRead := by
  intro i s s' t t' hs hread h h'
  obtain ⟨v', rfl⟩ : ∃ v', s' = s.withV v' := ⟨_, hs⟩
  change AgreeAfter i s (s.withV v') t t'
  cases i with
  | ret =>
    rcases exec_ret_cases h with ⟨hsp, rfl⟩ | ⟨hsp, rfl⟩
    · cases ((s.withV v').popThen_next (fun t s' => s'.jumpTo t) hsp).symm.trans h'
      exact .of_writesNone rfl fun _ => id
    · cases ((s.withV v').popThen_raise (fun t s' => s'.jumpTo t) hsp).symm.trans h'
      exact .raise _
  | call nnn =>
    rcases exec_call_cases h with ⟨hsp, rfl⟩ | ⟨hsp, rfl⟩
    · cases ((s.withV v').pushThen_next (s.pc + 2) (fun s' => s'.jumpTo nnn) hsp).symm.trans h'
      exact .of_writesNone rfl fun _ => id
    · cases ((s.withV v').pushThen_raise (s.pc + 2) (fun s' => s'.jumpTo nnn) hsp).symm.trans h'
      exact .raise _
  | seImm x nn | sneImm x nn => cases h; cases h'; exact .skipIf (by rw [hread x rfl]) fun _ => id
  | seReg x y | sneReg x y =>
    cases h; cases h'
    exact .skipIf (by rw [hread x (.inl rfl), hread y (.inr rfl)]) fun _ => id
  | skp x =>
    rcases State.withKey_twice (k := s.skipIf) (k' := (s.withV v').skipIf) (hread x rfl) h h' with
      ⟨b, rfl, rfl⟩ | ⟨c, rfl, rfl⟩
    · exact .skipIf rfl fun _ => id
    · exact .raise c
  | sknp x =>
    rcases State.withKey_twice (k := (s.skipIf !·)) (k' := ((s.withV v').skipIf !·)) (hread x rfl) h h' with
      ⟨b, rfl, rfl⟩ | ⟨c, rfl, rfl⟩
    · exact .skipIf rfl fun _ => id
    · exact .raise c
  | ldImm x nn | rnd x nn | ldVxDt x =>
    cases h; cases h'
    exact .of_writesOne rfl (fun _ => .rfl) ((State.getV_setV_same ..).trans (State.getV_setV_same ..).symm)
  | addImm x nn =>
    cases h; cases h'
    exact .of_writesOne rfl (fun _ => .rfl) (by simp only [State.getV_setV_same, hread x rfl])
  | ldReg x y =>
    cases h; cases h'
    exact .of_writesOne rfl (fun _ => .rfl) (by simp only [State.getV_setV_same, hread y rfl])
  | or x y | and x y | xor x y =>
    cases h; cases h'
    exact .of_writesOne rfl (fun _ => .rfl)
      (by simp only [State.getV_setV_same, hread x (.inl rfl), hread y (.inr rfl)])
  | addReg x y | sub x y | subn x y =>
    cases h; cases h'
    exact .flagged (hread x (.inl rfl)) (hread y (.inr rfl)) fun _ => .rfl
  | shr x | shl x => cases h; cases h'; exact .flagged (hread x rfl) (hread x rfl) fun _ => .rfl
  | jpV0 nnn =>
    cases h; cases h'
    refine .of_writesNone ?_ fun _ => id
    rw [State.offsetTarget, hread 0 rfl]
    rfl
  | drw x y n =>
    rcases State.checkedAccess_twice h h' with ⟨rfl, rfl⟩ | ⟨c, rfl, rfl⟩
    · rw [hread x (.inl rfl), hread y (.inr rfl)]
      exact .of_writesOne rfl (fun _ => .rfl) ((State.getV_setV_same ..).trans (State.getV_setV_same ..).symm)
    · exact .raise c
  | addIVx x =>
    rcases State.addIndex_twice (hread x rfl) h h' with ⟨b, a, rfl, rfl⟩ | ⟨c, rfl, rfl⟩
    · exact .of_writesOne rfl (fun _ => .rfl) ((State.getV_setV_same ..).trans (State.getV_setV_same ..).symm)
    · exact .raise c
  | ldBVx x =>
    rcases State.checkedAccess_twice h h' with ⟨rfl, rfl⟩ | ⟨c, rfl, rfl⟩
    · rw [hread x rfl]
      exact .of_writesNone rfl fun _ => id
    · exact .raise c
  | ldMemVx x =>
    rcases State.checkedAccess_twice h h' with ⟨rfl, rfl⟩ | ⟨c, rfl, rfl⟩
    · have hstored : v'.toList.take (x.val + 1) = s.v.toList.take (x.val + 1) :=
        take_registers_congr fun r hr => hread r hr
      refine .of_writesNone ?_ fun _ => id
      rw [← hstored]
      rfl
    · exact .raise c
  | ldVxMem x =>
    rcases State.checkedAccess_twice h h' with ⟨rfl, rfl⟩ | ⟨c, rfl, rfl⟩
    · refine ⟨rfl, fun r hr => .inl ?_⟩
      have hloaded := (s.getV_ofFn (fun z => if z ≤ x then s.mem.read (s.dataAddr z.val) else s.getV z) r).trans
        (if_pos hr)
      exact (((s.withV v').getV_ofFn _ r).trans (if_pos hr)).trans hloaded.symm
    · exact .raise c
  | ldVxK x =>
    rcases exec_ldVxK_cases h with ⟨hk, rfl⟩ | ⟨hk, rfl⟩
    · rcases exec_ldVxK_cases h' with ⟨_, rfl⟩ | ⟨hk', _⟩
      · exact .of_writesOne rfl (fun _ => .rfl) ((State.getV_setV_same ..).trans (State.getV_setV_same ..).symm)
      · exact absurd (hk.symm.trans hk') (by decide)
    · rcases exec_ldVxK_cases h' with ⟨hk', _⟩ | ⟨_, rfl⟩
      · exact absurd (hk.symm.trans hk') (by decide)
      · exact ⟨rfl, fun _ _ => .inr ⟨rfl, rfl⟩⟩
  | ldDtVx x | ldStVx x | ldFVx x =>
    cases h; cases h'
    refine .of_writesNone ?_ fun _ => id
    rw [hread x rfl]
    rfl
  | _ => cases h; cases h'; exact .of_writesNone rfl fun _ => id

end Sys2Proof.Machine
end

section
/-! The invariant of the states between ticks (R40 to R42, R52 to R55, R152): what each instruction keeps of it, the
ends of a tick, and the actions of the host. -/

namespace Sys2Proof.Machine

/-! ## What each instruction keeps -/

/-- An instruction keeps memory canonical: the stores write only to addresses that exist. -/
theorem exec_memory_wf {i : Instr} {s t : State} (h : exec i s = .next t) (hs : s.mem.wf = true) :
    t.mem.wf = true := by
  cases i with
  | ldBVx x =>
    rcases exec_ldBVx_cases h with ⟨hfits, rfl⟩ | ⟨_, rfl⟩
    · exact Memory.wf_writeAll hs hfits
    · exact hs
  | ldMemVx x =>
    rcases exec_ldMemVx_cases h with ⟨hfits, rfl⟩ | ⟨_, rfl⟩
    · exact Memory.wf_writeAll hs (by rwa [length_registersUpTo])
    · exact hs
  | _ => rwa [exec_mem h (by simp [Instr.changes])]

/-- The part of the invariant that speaks of the return stack (R41, R182). -/
structure State.StackInv (s : State) : Prop where
  returnBound : ∀ k : Fin 16, s.stack[k].toNat ≤ 0x1000
  freeSlots : ∀ k : Fin 16, s.sp.val ≤ k.val → s.stack[k] = 0

theorem stack_getElem_set (stack : Vector Word 16) {n : Nat} (hn : n < 16) (a : Word) (k : Fin 16) :
    (stack.set n a)[k] = if n = k.val then a else stack[k] := by
  simp only [Fin.getElem_fin, Vector.getElem_set]

/-- A return address that CALL pushes comes after an instruction that was fetched (R141, R182). -/
theorem toNat_returnAddress {pc : Word} (h : pc.toNat ≤ 0xFFE) : (pc + 2).toNat ≤ 0x1000 := by
  bv_omega

theorem exec_stackInv {i : Instr} {s t : State} (h : exec i s = .next t) (hpc : s.pc.toNat ≤ 0xFFE)
    (hs : s.StackInv) : t.StackInv := by
  cases i with
  | call nnn =>
    rcases exec_call_cases h with ⟨hsp, rfl⟩ | ⟨_, rfl⟩
    · constructor
      · intro k
        rw [stack_getElem_set]
        split_ifs
        · exact toNat_returnAddress hpc
        · exact hs.returnBound k
      · intro k hk
        rw [stack_getElem_set, if_neg (Nat.ne_of_lt hk)]
        exact hs.freeSlots k (Nat.le_of_succ_le hk)
    · exact ⟨hs.returnBound, hs.freeSlots⟩
  | ret =>
    rcases exec_ret_cases h with ⟨hsp, rfl⟩ | ⟨_, rfl⟩
    · constructor
      · intro k
        rw [stack_getElem_set]
        split_ifs
        · decide
        · exact hs.returnBound k
      · intro k hk
        rw [stack_getElem_set]
        split_ifs with hslot
        · rfl
        · exact hs.freeSlots k (by simp only at hk; omega)
    · exact ⟨hs.returnBound, hs.freeSlots⟩
  | _ =>
    have hstack : t.stack = s.stack := exec_stack h (by simp [Instr.changes])
    have hsp : t.sp = s.sp := exec_sp h (by simp [Instr.changes])
    exact ⟨hstack ▸ hs.returnBound, hsp ▸ hstack ▸ hs.freeSlots⟩

theorem toNat_offsetTarget {s : State} {nnn : Word} (h : fitsAddr nnn = true) :
    (s.offsetTarget nnn).toNat = nnn.toNat + (s.getV 0).toNat := by
  have hnnn : nnn.toNat < 0x1000 := of_decide_eq_true h
  rw [State.offsetTarget]
  bv_omega

theorem State.skipIf_pc_le (s : State) (c : Bool) (h : s.pc.toNat ≤ 0xFFE) : (s.skipIf c).pc.toNat ≤ 0x1000 := by
  rw [s.skipIf_pc]
  split_ifs
  · exact toNat_returnAddress h
  · omega

/-- Where PC is after an instruction that completes: at a target of 12 bits and a register, or in reach of step 4. -/
theorem exec_pc_bound {i : Instr} {s t : State} (h : exec i s = .next t) (hwf : i.wf = true) (hpc : s.pc.toNat ≤ 0xFFE)
    (hs : s.StackInv) (ht : t.halt = none) :
    t.pc.toNat ≤ 0x10FE ∧ (t.jump = false → t.pc.toNat ≤ 0x1000) := by
  cases i with
  | jp nnn =>
    have hnnn : nnn.toNat < 0x1000 := of_decide_eq_true hwf
    cases h
    exact ⟨by simp only [State.jumpTo_pc]; omega, fun hj => by cases hj⟩
  | jpV0 nnn =>
    have hnnn : nnn.toNat < 0x1000 := of_decide_eq_true hwf
    cases h
    refine ⟨?_, fun hj => by cases hj⟩
    rw [State.jumpTo_pc, toNat_offsetTarget hwf]
    omega
  | call nnn =>
    have hnnn : nnn.toNat < 0x1000 := of_decide_eq_true hwf
    rcases exec_call_cases h with ⟨_, rfl⟩ | ⟨_, rfl⟩
    · exact ⟨by simp only; omega, fun hj => by cases hj⟩
    · cases ht
  | ret =>
    rcases exec_ret_cases h with ⟨hsp, rfl⟩ | ⟨_, rfl⟩
    · have hret := hs.returnBound ⟨s.sp.val - 1, by omega⟩
      exact ⟨hret.trans (by decide), fun hj => by cases hj⟩
    · cases ht
  | seImm | sneImm | seReg | sneReg =>
    cases h
    exact ⟨(s.skipIf_pc_le _ hpc).trans (by decide), fun _ => s.skipIf_pc_le _ hpc⟩
  | skp x =>
    rcases exec_skp_cases h with ⟨_, rfl⟩ | ⟨_, rfl⟩
    · exact ⟨(s.skipIf_pc_le _ hpc).trans (by decide), fun _ => s.skipIf_pc_le _ hpc⟩
    · cases ht
  | sknp x =>
    rcases exec_sknp_cases h with ⟨_, rfl⟩ | ⟨_, rfl⟩
    · exact ⟨(s.skipIf_pc_le _ hpc).trans (by decide), fun _ => s.skipIf_pc_le _ hpc⟩
    · cases ht
  | _ =>
    rw [exec_pc h (by simp [Instr.changes])]
    omega

/-- AWAIT comes with JUMP: LD Vx, K alone sets it. -/
theorem exec_await_jump {i : Instr} {s t : State} (h : exec i s = .next t) (hs : s.await = false)
    (ht : t.await = true) : t.jump = true := by
  cases i with
  | ldVxK x =>
    rcases exec_ldVxK_cases h with ⟨_, rfl⟩ | ⟨_, rfl⟩
    · exact absurd (hs.symm.trans ht) (by decide)
    · rfl
  | _ => exact absurd ((exec_await h (by simp [Instr.changes])).symm.trans ht) (by simp [hs])

/-! ## The ends of a tick -/

theorem State.pc_le_of_fetch {s : State} {w : Word} (h : s.fetch = some w) : s.pc.toNat ≤ 0xFFE := by
  unfold State.fetch at h
  split_ifs at h with hpc
  omega

/-- A tick that ends with steps 4 to 7. -/
theorem State.finishTick_inv {u : State} (hmem : u.mem.wf = true) (hstack : u.StackInv)
    (hpc : u.pc.toNat ≤ 0x10FE ∧ (u.jump = false → u.pc.toNat ≤ 0x1000)) (hawait : u.await = true → u.jump = true)
    (hhalt : u.halt = none) (hrefused : u.refused = none) : u.finishTick.Inv := by
  rw [u.finishTick_eq]
  refine ⟨hmem, ?_, hstack.returnBound, hstack.freeSlots, rfl, hawait, .inl hhalt, by simp [hhalt], by simp [hrefused]⟩
  obtain ⟨hjumped, hnext⟩ := hpc
  cases hj : u.jump with
  | true => simpa using hjumped
  | false =>
    have hle := hnext hj
    have hadd : (u.pc + 2).toNat ≤ 0x1002 := by bv_omega
    simp only [Bool.false_eq_true, if_false]
    omega

section
variable {s : State} (hs : s.Inv) (hrun : s.halt = none ∧ s.refused = none)
include hs hrun

/-- A tick that a fatal condition ends, in step 2 or in step 3. -/
theorem State.Inv.raise_endTick (c : Fatal) (op : Option Word) :
    ({ s.beginTick with op := op }.raise c).endTick.Inv :=
  ⟨hs.memory, hs.pcBound, hs.returnBound, hs.freeSlots, rfl, fun h => (nomatch h), .inr hrun.2,
    fun _ h => Option.some.inj h ▸ rfl, fun _ h => (nomatch hrun.2.symm.trans h)⟩

theorem State.Inv.refuseWord (w : Word) : (s.beginTick.refuseWord w).Inv :=
  ⟨hs.memory, hs.pcBound, hs.returnBound, hs.freeSlots, rfl, fun h => (nomatch h), .inl hrun.1,
    fun _ h => (nomatch hrun.1.symm.trans h), fun _ h => Option.some.inj h ▸ rfl⟩

theorem State.Inv.unknownWord {w : Word} (hpc : s.pc.toNat ≤ 0xFFE) : (s.beginTick.unknownWord w).Inv :=
  State.finishTick_inv hs.memory ⟨hs.returnBound, hs.freeSlots⟩ ⟨hs.pcBound, fun _ => hpc.trans (by decide)⟩
    (fun h => by cases h) hrun.1 hrun.2

theorem State.Inv.afterExec {i : Instr} {u : State} {w : Word} (hpc : s.pc.toNat ≤ 0xFFE) (hwf : i.wf = true)
    (he : exec i (atExec s w) = .next u) : u.afterExec.Inv := by
  rcases exec_halt he hrun.1 with ⟨c, rfl⟩ | hu
  · exact hs.raise_endTick hrun c (some w)
  · have hstack : (atExec s w).StackInv := ⟨hs.returnBound, hs.freeSlots⟩
    rw [State.afterExec_of_completed hu]
    exact State.finishTick_inv (exec_memory_wf he hs.memory) (exec_stackInv he hpc hstack)
      (exec_pc_bound he hwf hpc hstack hu) (exec_await_jump he rfl) hu
      ((exec_cycleFieldsKept he hu).refused.trans hrun.2)

end

/-- Settles O45: an idle tick changes the events only; a tick that runs ends with a record in HALT or REFUSED, or
with steps 4 to 7 after a word that keeps memory, the stack and the bound of PC. -/
theorem everyTickKeepsTheInvariant : Obligations.EveryTickKeepsTheInvariant := by
  intro s t hs h
  rcases step_cases h with ⟨_, rfl⟩ | ⟨hrun, _, rfl⟩ | ⟨w, hrun, hw, hword⟩
  · exact ⟨hs.memory, hs.pcBound, hs.returnBound, hs.freeSlots, hs.noOpcode, hs.awaitJump, hs.oneMark, hs.haltPc,
      hs.refusedPc⟩
  · exact hs.raise_endTick (s.running_iff.mp hrun) .fetchOutOfRange none
  · have hrun := s.running_iff.mp hrun
    have hpc := State.pc_le_of_fetch hw
    rcases hword with ⟨i, u, hd, he, rfl⟩ | ⟨_, rfl⟩ | ⟨_, rfl⟩
    · exact hs.afterExec hrun hpc (decode_wf hd) he
    · exact hs.unknownWord hrun hpc
    · exact hs.refuseWord hrun w

/-! ## The host (R330 to R334, R350 to R357) -/

theorem State.hostReset_inv (s : State) : s.hostReset.Inv where
  memory := Memory.wf_nil
  pcBound := (by decide : (0x200 : Word).toNat ≤ 0x10FE)
  returnBound k := by simp [State.hostReset, State.reset]
  freeSlots k _ := by simp [State.hostReset, State.reset]
  noOpcode := rfl
  awaitJump h := nomatch h
  oneMark := .inl rfl
  haltPc _ h := nomatch h
  refusedPc _ h := nomatch h

/-- Settles O46: the state after reset is what the host's reset leaves of it. -/
theorem resetMeetsTheInvariant : Obligations.ResetMeetsTheInvariant := State.reset.hostReset_inv

/-- A key event writes KEY, KLATCH and KFLAG only (R333). -/
theorem State.press_eq (s : State) (k : Key) :
    s.press k = { s with key := s.key.set k true, klatch := if s.kflag then s.klatch else k, kflag := true } := by
  unfold State.press
  split_ifs with hk
  · rw [← hk]
  · rfl

theorem State.Inv.press {s : State} (hs : s.Inv) (k : Key) : (s.press k).Inv := by
  rw [s.press_eq]
  exact ⟨hs.memory, hs.pcBound, hs.returnBound, hs.freeSlots, hs.noOpcode, hs.awaitJump, hs.oneMark, hs.haltPc,
    hs.refusedPc⟩

theorem State.Inv.release {s : State} (hs : s.Inv) (k : Key) : (s.release k).Inv :=
  ⟨hs.memory, hs.pcBound, hs.returnBound, hs.freeSlots, hs.noOpcode, hs.awaitJump, hs.oneMark, hs.haltPc, hs.refusedPc⟩

theorem State.Inv.load {s : State} (hs : s.Inv) (image : List Byte) : (s.load image).2.Inv := by
  have hmem := State.load_wf hs.memory image
  rcases Nat.lt_or_ge Config.progMax image.length with hl | hl
  · rwa [s.load_tooLarge hl]
  · rw [s.load_ok hl] at hmem ⊢
    exact ⟨hmem, hs.pcBound, hs.returnBound, hs.freeSlots, hs.noOpcode, hs.awaitJump, hs.oneMark, hs.haltPc,
      hs.refusedPc⟩

theorem HostSession.load_state (h : HostSession) (image : List Byte) :
    (h.load image).session.state = (h.state.load image).2 := by
  rcases Nat.lt_or_ge Config.progMax image.length with hl | hl
  · rw [h.load_tooLarge hl, h.state.load_tooLarge hl]
  · rw [h.load_ok hl, h.state.load_ok hl]

/-- A load that copied leaves no right to load; one that was too long leaves the session as it is (R353, R356). -/
theorem HostSession.LoadsOntoReset.load {h : HostSession} (hl : h.LoadsOntoReset) (image : List Byte) :
    (h.load image).session.LoadsOntoReset := by
  rcases Nat.lt_or_ge Config.progMax image.length with hlong | hfits
  · rwa [h.load_tooLarge hlong]
  · rw [h.load_ok hfits]
    exact fun hm => nomatch hm

theorem HostSession.LoadsOntoReset.press {h : HostSession} (hl : h.LoadsOntoReset) (k : Key) :
    HostSession.LoadsOntoReset ⟨h.state.press k, h.mayLoad⟩ := by
  intro hm
  rw [h.state.press_eq]
  exact congrArg (fun s : State => { s with
    key := h.state.key.set k true, klatch := if h.state.kflag then h.state.klatch else k, kflag := true }) (hl hm)

theorem HostSession.LoadsOntoReset.release {h : HostSession} (hl : h.LoadsOntoReset) (k : Key) :
    HostSession.LoadsOntoReset ⟨h.state.release k, h.mayLoad⟩ :=
  fun hm => congrArg (fun s : State => { s with key := h.state.key.set k false }) (hl hm)

/-- Settles O47: each action by itself; a tick, and a load that copied, leave no right to load. -/
theorem everyHostActionKeepsTheInvariant : Obligations.EveryHostActionKeepsTheInvariant := by
  intro h a r hstep
  rcases hostStep_cases hstep with
    ⟨_, rfl⟩ | ⟨image, _, _, rfl⟩ | ⟨t, rfl, _, rfl⟩ | ⟨k, _, rfl⟩ | ⟨k, _, rfl⟩ | ⟨_, rfl⟩
  · exact ⟨fun _ _ => h.state.hostReset_inv, fun _ _ => rfl⟩
  · exact ⟨fun hs _ => h.load_state image ▸ hs.load image, fun hl => hl.load image⟩
  · exact ⟨fun _ hne => absurd rfl hne, fun _ hm => nomatch hm⟩
  · exact ⟨fun hs _ => hs.press k, fun hl => hl.press k⟩
  · exact ⟨fun hs _ => hs.release k, fun hl => hl.release k⟩
  · exact ⟨fun hs _ => hs, id⟩

end Sys2Proof.Machine
end

section
/-! The tick (R140 to R152, R304, R306): the tick of an instruction, of an unknown word, of a fatal condition, of an
open word and of a stopped block, and the jump to itself that ends a program (R358). -/

namespace Sys2Proof.Machine

/-! ## One tick -/

/-- The tick of a word that decodes to an instruction, whether it completes or raises. -/
theorem step_of_exec {s u : State} {w : Word} {i : Instr} (hf : Fetches s w) (hd : decode w = .instr i)
    (he : exec i (atExec s w) = .next u) : step s = .next u.afterExec := by
  obtain ⟨hrun, hfetch⟩ := hf
  rw [step_fetched hrun hfetch, runWord_instr hd he]

/-- Settles O35: steps 4 to 7 are one update of the state that the instruction leaves. -/
theorem stepRunsTheDecodedInstruction : Obligations.StepRunsTheDecodedInstruction := by
  intro s u w i hrun hfetch hd he
  rw [step_of_exec ⟨hrun, hfetch⟩ hd he, State.afterExec, State.finishTick_eq]
  rfl

/-- Settles O40: step 3 only reports the word, and steps 4 to 7 follow with JUMP clear. -/
theorem unknownWordIsReportedAndSkipped : Obligations.UnknownWordIsReportedAndSkipped := by
  intro s w hf hd
  have edge : s.st = 1 ↔ s.st.toNat = 1 := by bv_omega
  refine ⟨_, step_of_unknown hf hd, State.finishTick_pc _, State.finishTick_dt_toNat _, State.finishTick_st_toNat _,
    ?_, rfl, ?_⟩
  · rw [State.unknownWord, State.finishTick_events, State.emit_st, State.beginTick_st]
    simp only [edge]
    split_ifs <;> rfl
  · rw [State.unknownWord, State.finishTick_eq]
    exact ⟨rfl, rfl, rfl, rfl, sameExcept_of_withFieldsOf rfl⟩

/-- Settles O41: such a PC has no word to fetch. -/
theorem fetchBeyondMemoryHalts : Obligations.FetchBeyondMemoryHalts :=
  fun _ hrun hpc => step_fetchOutOfRange hrun (if_pos hpc)

/-- Settles O42: an instruction that started with HALT clear and leaves it set has raised, and changed nothing else. -/
theorem fatalConditionEndsTheTick : Obligations.FatalConditionEndsTheTick := by
  intro s u w i hf hd he hu
  obtain ⟨c, rfl⟩ := (exec_halt he (s.running_iff.mp hf.1).1).resolve_right hu
  exact ⟨c, rfl, step_of_exec hf hd he⟩

/-! ## A stopped block (R304, R306) -/

theorem State.not_running {s : State} (h : s.halt ≠ none ∨ s.refused ≠ none) : s.running = false := by
  rw [← Bool.not_eq_true, s.running_iff]
  tauto

theorem run_succ {M : Host.Core} {s t : M.State} (h : M.step s = .next t) (n : Nat) :
    M.run (n + 1) s = M.run n t := by
  simp only [Host.Core.run, h]

/-- Settles O43: the state after an idle tick is stopped too, so that every further tick is idle. -/
theorem stoppedBlockStaysAsItIs : Obligations.StoppedBlockStaysAsItIs := by
  intro s n hstop
  induction n generalizing s with
  | zero => exact run_succ (M := core) (step_idle (State.not_running hstop)) 0
  | succ n ih => exact (run_succ (M := core) (step_idle (State.not_running hstop)) (n + 1)).trans (ih s.idleTick hstop)

/-! ## The open words of group 0x0 (R110) -/

theorem decode_open {w : Word} (hg : fieldG w = 0) (hn : fieldN w = 0x0 ∨ fieldN w = 0xE) (hcls : w ≠ 0x00E0)
    (hret : w ≠ 0x00EE) : decode w = zeroGroup Config.zeroGroupSelect w := by
  rw [decode_group0 hg, decodeGroup0_open hcls hret hn]

theorem zeroGroup_lowNibble (w : Word) :
    zeroGroup .lowNibble w = .instr (if fieldN w = 0x0 then .cls else .ret) :=
  (apply_ite Decoded.instr _ _ _).symm

theorem zeroGroup_lowByte {w : Word} (h : fieldNN w = 0xE0 ∨ fieldNN w = 0xEE) :
    zeroGroup .lowByte w = .instr (if fieldNN w = 0xE0 then .cls else .ret) := by
  rcases h with h | h <;> simp [zeroGroup, h]

theorem step_of_refused {s : State} {w : Word} (hf : Fetches s w) (hd : decode w = .refused) :
    step s = .next (s.beginTick.refuseWord w) := by
  obtain ⟨hrun, hfetch⟩ := hf
  rw [step_fetched hrun hfetch, runWord_refused hd]

/-- Settles O44: each setting gives the word one meaning, and the tick is the tick of that meaning. -/
theorem openZeroGroupWordFollowsTheSetting : Obligations.OpenZeroGroupWordFollowsTheSetting := by
  intro s w hf hg hn hcls hret
  have hd := decode_open hg hn hcls hret
  have run {i : Instr} (hi : decode w = .instr i) :
      ∃ u, exec i (atExec s w) = .next u ∧ step s = .next u.afterExec := by
    obtain ⟨u, hu⟩ := exec_isNext i (atExec s w)
    exact ⟨u, hu, step_of_exec hf hi hu⟩
  generalize Config.zeroGroupSelect = sel at hd
  cases sel with
  | refuse => exact step_of_refused hf hd
  | lowNibble => exact run (hd.trans (zeroGroup_lowNibble w))
  | lowByte =>
    dsimp only
    by_cases hb : fieldNN w = 0xE0 ∨ fieldNN w = 0xEE
    · rw [if_pos hb]
      exact run (hd.trans (zeroGroup_lowByte hb))
    · obtain ⟨hE0, hEE⟩ := not_or.mp hb
      rw [if_neg hb]
      exact step_of_unknown hf (hd.trans ((if_neg hE0).trans (if_neg hEE)))
  | exact => exact step_of_unknown hf hd

/-! ## A finished program (R358) -/

theorem selfJump_eq_encode {pc : Word} (h : pc.toNat < 0x1000) : 0x1000 ||| pc = encode (.jp pc) := by
  apply BitVec.eq_of_toNat_eq
  rw [encode, toNat_encodeFA, BitVec.toNat_or, Nat.mod_eq_of_lt h]
  exact (Nat.shiftLeft_add_eq_or_of_lt (i := 12) h 1).symm

/-- A jump whose target is its own address decodes to that jump (R105, R358). -/
theorem decode_selfJump {pc : Word} (h : pc.toNat < 0x1000) : decode (0x1000 ||| pc) = .instr (.jp pc) := by
  rw [selfJump_eq_encode h]
  exact decodeOfEncodeIsTheInstruction (.jp pc) (decide_eq_true h)

/-- The elements that a finished program leaves as they are. -/
def StandsAs (s t : State) : Prop :=
  t.pc = s.pc ∧ t.v = s.v ∧ t.i = s.i ∧ t.mem = s.mem ∧ t.sp = s.sp ∧ t.stack = s.stack ∧ t.fb = s.fb

theorem StandsAs.trans {s t u : State} (h : StandsAs s t) (h' : StandsAs t u) : StandsAs s u := by
  obtain ⟨hpc, hv, hi, hmem, hsp, hstack, hfb⟩ := h
  obtain ⟨hpc', hv', hi', hmem', hsp', hstack', hfb'⟩ := h'
  exact ⟨hpc'.trans hpc, hv'.trans hv, hi'.trans hi, hmem'.trans hmem, hsp'.trans hsp, hstack'.trans hstack,
    hfb'.trans hfb⟩

theorem State.fetch_congr {s t : State} (hpc : t.pc = s.pc) (hmem : t.mem = s.mem) : t.fetch = s.fetch := by
  simp only [State.fetch, hpc, hmem]

/-- One tick of a finished program: the jump to itself, and then the timers and the key flag. -/
theorem step_of_finished {s : State} (hs : s.finished) : ∃ t, step s = .next t ∧ t.finished ∧ StandsAs s t := by
  obtain ⟨⟨hhalt, hrefused⟩, hfetch⟩ := hs
  have hpc : s.pc.toNat < 0x1000 := Nat.lt_succ_of_le ((State.pc_le_of_fetch hfetch).trans (by decide))
  have hf : Fetches s (0x1000 ||| s.pc) := ⟨s.running_iff.mpr ⟨hhalt, hrefused⟩, hfetch⟩
  refine ⟨_, step_of_instr (u := (atExec s (0x1000 ||| s.pc)).jumpTo s.pc) hf (decode_selfJump hpc) rfl hhalt, ?_⟩
  rw [State.finishTick_eq]
  exact ⟨⟨⟨hhalt, hrefused⟩, (State.fetch_congr rfl rfl).trans hfetch⟩, rfl, rfl, rfl, rfl, rfl, rfl, rfl⟩

/-- Settles O56: every tick of a finished program leaves it finished and standing as it stood. -/
theorem finishedProgramStaysFinished : Obligations.FinishedProgramStaysFinished := by
  intro n
  induction n with
  | zero => exact fun s hs => ⟨s, rfl, hs, rfl, rfl, rfl, rfl, rfl, rfl, rfl⟩
  | succ n ih =>
    intro s hs
    obtain ⟨t, hstep, ht, hst⟩ := step_of_finished hs
    obtain ⟨u, hrun, hu, htu⟩ := ih t ht
    exact ⟨u, (run_succ (M := core) hstep n).trans hrun, hu, hst.trans htu⟩

end Sys2Proof.Machine
end

section
/-! The instructions that set a flag (R210, R211, R218 to R223): the two orders of the flag write and the result write,
the additions, subtractions and shifts, their ticks, and the random byte. -/

namespace Sys2Proof.Machine

/-! ## The flag and the result in the words of the spec -/

theorem isBool_boolByte {c : Bool} {p : Prop} (h : c = true ↔ p) : IsBool (boolByte c) p := by
  constructor
  · intro hp
    rw [boolByte, if_pos (h.mpr hp)]
  · intro hp
    rw [boolByte, if_neg (mt h.mp hp)]

/-- An instruction that writes a flag and a result does what R211 says in either order, when both functions of bytes
compute the functions of exact integers. -/
theorem State.flagged_flaggedBy (s : State) (o : VfWriteOrder) (x y : Reg) {flag : Byte → Byte → Bool}
    {result : Byte → Byte → Byte} {flagN : Nat → Nat → Prop} {resultN : Nat → Nat → Nat}
    (hflag : ∀ a b, flag a b = true ↔ flagN a.toNat b.toNat)
    (hresult : ∀ a b, (result a b).toNat = resultN a.toNat b.toNat) :
    FlaggedBy o s (s.flagged o x y flag result) x y flagN resultN := by
  refine ⟨⟨boolByte (flag (s.getV x) (s.getV y)), isBool_boolByte (hflag _ _), ?_⟩,
    fun r hx hf => s.flagged_getV_other o x y flag result (not_or.mpr ⟨hx, hf⟩),
    sameExcept_of_withFieldsOf (s.flagged_frame o x y flag result)⟩
  cases o with
  | flagFirst =>
    simp only [State.getV_flagged_flagFirst, if_true, hresult, apply_ite BitVec.toNat, true_and]
    exact fun hx => if_neg (Ne.symm hx)
  | operandsFirst =>
    simp only [State.getV_flagged_operandsFirst, if_true, true_and]
    intro hx
    rw [if_neg hx, hresult]

/-- Away from VF the two orders agree: the result and the flag are those of the original operands (R211). -/
theorem FlaggedBy.of_operands_ne_vF {o : VfWriteOrder} {s t : State} {x y : Reg} {flag : Nat → Nat → Prop}
    {result : Nat → Nat → Nat} (h : FlaggedBy o s t x y flag result) (hx : x ≠ vF) (hy : y ≠ vF) :
    (t.getV x).toNat = result (s.getV x).toNat (s.getV y).toNat ∧
      IsBool (t.getV vF) (flag (s.getV x).toNat (s.getV y).toNat) := by
  obtain ⟨⟨f, hf, hwritten⟩, _, _⟩ := h
  cases o with
  | flagFirst =>
    obtain ⟨hres, hflag⟩ := hwritten
    rw [if_neg hx, if_neg hy] at hres
    exact ⟨hres, (hflag hx).symm ▸ hf⟩
  | operandsFirst =>
    obtain ⟨hflag, hres⟩ := hwritten
    exact ⟨hres hx, hflag.symm ▸ hf⟩

/-! ## The functions of bytes -/

theorem carryFlag_iff (a b : Byte) : carryFlag a b = true ↔ a.toNat + b.toNat > 255 := by
  rw [carryFlag, decide_eq_true_iff]
  omega

theorem notBorrowFlag_iff (a b : Byte) : notBorrowFlag a b = true ↔ a.toNat ≥ b.toNat := decide_eq_true_iff

theorem lowBitFlag_iff (a : Byte) : lowBitFlag a = true ↔ a.toNat % 2 = 1 := by
  rw [lowBitFlag, BitVec.getLsbD, Nat.testBit_zero, decide_eq_true_iff]

theorem highBitFlag_iff (a : Byte) : highBitFlag a = true ↔ a.toNat ≥ 128 := by
  have hlt := a.isLt
  rw [highBitFlag, BitVec.getLsbD, Nat.testBit_eq_decide_div_mod_eq, decide_eq_true_iff]
  omega

theorem toNat_sub_byte (a b : Byte) : (a - b).toNat = (a.toNat + 256 - b.toNat) % 256 := by
  have hlt := b.isLt
  rw [BitVec.toNat_sub]
  omega

theorem toNat_half (a : Byte) : (a >>> 1).toNat = a.toNat / 2 := by
  rw [BitVec.toNat_ushiftRight, Nat.shiftRight_eq_div_pow]

theorem toNat_double (a : Byte) : (a <<< 1).toNat = a.toNat * 2 % 256 := by
  rw [BitVec.toNat_shiftLeft, Nat.shiftLeft_eq]

/-! ## The statements -/

theorem exec_flagged {i : Instr} {s : State} {x y : Reg} {flag : Byte → Byte → Bool} {result : Byte → Byte → Byte}
    {flagN : Nat → Nat → Prop} {resultN : Nat → Nat → Nat}
    (h : exec i s = .next (s.flagged (orderFor x y) x y flag result))
    (hflag : ∀ a b, flag a b = true ↔ flagN a.toNat b.toNat)
    (hresult : ∀ a b, (result a b).toNat = resultN a.toNat b.toNat) :
    ∃ t, exec i s = .next t ∧ FlaggedBy Config.vfWriteOrder s t x y flagN resultN :=
  ⟨_, h.trans (by rw [s.flagged_orderFor]), s.flagged_flaggedBy _ x y hflag hresult⟩

/-- Settles O9: the carry is the exact sum above 255, and a byte wraps the sum modulo 256. -/
theorem addWithCarryWritesSumAndCarry : Obligations.AddWithCarryWritesSumAndCarry :=
  fun _ _ _ => exec_flagged rfl carryFlag_iff BitVec.toNat_add

/-- Settles O10: SUBN is SUB with the operands exchanged. -/
theorem subtractionsWriteDifferenceAndNotBorrow : Obligations.SubtractionsWriteDifferenceAndNotBorrow :=
  fun _ _ _ => ⟨exec_flagged rfl notBorrowFlag_iff toNat_sub_byte,
    exec_flagged rfl (fun a b => notBorrowFlag_iff b a) (fun a b => toNat_sub_byte b a)⟩

/-- Settles O11: a shift writes half or the double, and its flag is bit 0 or bit 7. -/
theorem shiftsWriteTheBitShiftedOut : Obligations.ShiftsWriteTheBitShiftedOut :=
  fun _ _ => ⟨exec_flagged rfl (fun a _ => lowBitFlag_iff a) (fun a _ => toNat_half a),
    exec_flagged rfl (fun a _ => highBitFlag_iff a) (fun a _ => toNat_double a)⟩

/-! ## The tick of a flag instruction -/

@[simp] theorem State.finishTick_getV (s : State) (r : Reg) : s.finishTick.getV r = s.getV r := by
  rw [s.finishTick_eq]
  rfl

/-- The word 8XYK, with the sub-code K in the low nibble (R102, R107). -/
theorem decode_aluWord {x y : Reg} {key : Nat} (hkey : key < 16) :
    decode (BitVec.ofNat 16 (0x8000 + x.val * 256 + y.val * 16 + key)) =
      decodeGroup8 (encodeFR 8 x y (BitVec.ofNat 4 key)) := by
  have hword : BitVec.ofNat 16 (0x8000 + x.val * 256 + y.val * 16 + key) = encodeFR 8 x y (BitVec.ofNat 4 key) := by
    apply BitVec.eq_of_toNat_eq
    rw [toNat_encodeFR, BitVec.toNat_ofNat, BitVec.toNat_ofNat]
    simp
    omega
  rw [hword, decode_group8 (fieldG_encodeFR ..)]

/-- The tick of a flag instruction away from VF (R211). -/
theorem step_of_flagged {o : VfWriteOrder} {s : State} {w : Word} {i : Instr} {x y : Reg} {flag : Nat → Nat → Prop}
    {result : Nat → Nat → Nat} (hf : Fetches s w) (hd : decode w = .instr i) (hx : x ≠ vF) (hy : y ≠ vF)
    (he : ∃ u, exec i (atExec s w) = .next u ∧ FlaggedBy o (atExec s w) u x y flag result) :
    ∃ t, step s = .next t ∧ t.pc = s.pc + 2 ∧ (∀ r, r ≠ x → r ≠ vF → t.getV r = s.getV r) ∧
      (t.getV x).toNat = result (s.getV x).toNat (s.getV y).toNat ∧
      IsBool (t.getV vF) (flag (s.getV x).toNat (s.getV y).toNat) := by
  obtain ⟨u, he, hu⟩ := he
  obtain ⟨_, hothers, hframe⟩ := id hu
  have hhalt : u.halt = none := (hframe .halt (by decide)).trans (s.running_iff.mp hf.1).1
  have hjump : u.jump = false := hframe .jump (by decide)
  have hpc : u.pc = s.pc := hframe .pc (by decide)
  refine ⟨_, step_of_instr hf hd he hhalt, by simp [hjump, hpc], fun r hr hr' => ?_, ?_⟩
  · exact (u.finishTick_getV r).trans (hothers r hr hr')
  · simp only [State.finishTick_getV]
    exact hu.of_operands_ne_vF hx hy

/-- Settles O12: the sub-code selects the instruction, and away from VF its order does not matter. -/
theorem tickOfAFlagInstructionUsesTheOriginalOperands :
    Obligations.TickOfAFlagInstructionUsesTheOriginalOperands := by
  intro s x y key hx hy hkey hf
  have hword : key < 16 := by simp at hkey; omega
  have hd := decode_aluWord (x := x) (y := y) hword
  simp only [List.mem_cons, List.not_mem_nil, or_false] at hkey
  rcases hkey with rfl | rfl | rfl | rfl | rfl
  · obtain ⟨t, hstep, hpc, hothers, hres⟩ := step_of_flagged hf (hd.trans (by simp [decodeGroup8])) hx
      (hy.resolve_right (by decide)) (addWithCarryWritesSumAndCarry x y _)
    exact ⟨t, hstep, hpc, hothers, fun _ => hres, nofun, nofun, nofun, nofun⟩
  · obtain ⟨t, hstep, hpc, hothers, hres⟩ := step_of_flagged hf (hd.trans (by simp [decodeGroup8])) hx
      (hy.resolve_right (by decide)) (subtractionsWriteDifferenceAndNotBorrow x y _).1
    exact ⟨t, hstep, hpc, hothers, nofun, fun _ => hres, nofun, nofun, nofun⟩
  · obtain ⟨t, hstep, hpc, hothers, hres⟩ := step_of_flagged hf (hd.trans (by simp [decodeGroup8])) hx hx
      (shiftsWriteTheBitShiftedOut x _).1
    exact ⟨t, hstep, hpc, hothers, nofun, nofun, fun _ => hres, nofun, nofun⟩
  · obtain ⟨t, hstep, hpc, hothers, hres⟩ := step_of_flagged hf (hd.trans (by simp [decodeGroup8])) hx
      (hy.resolve_right (by decide)) (subtractionsWriteDifferenceAndNotBorrow x y _).2
    exact ⟨t, hstep, hpc, hothers, nofun, nofun, nofun, fun _ => hres, nofun⟩
  · obtain ⟨t, hstep, hpc, hothers, hres⟩ := step_of_flagged hf (hd.trans (by simp [decodeGroup8])) hx hx
      (shiftsWriteTheBitShiftedOut x _).2
    exact ⟨t, hstep, hpc, hothers, nofun, nofun, nofun, nofun, fun _ => hres⟩

/-! ## The random byte (R223) -/

/-- Settles O13: the instruction is one draw and one register write, of a byte under the mask. -/
theorem randomWritesADrawnByteUnderTheMask : Obligations.RandomWritesADrawnByteUnderTheMask := by
  intro x nn s
  have hwritten := s.drawn.getV_setV_same x (s.randByte &&& nn)
  refine ⟨_, rfl, hwritten, ?_, ?_, fun r hr => s.drawn.getV_setV_other _ hr, rfl, sameExcept_of_withFieldsOf rfl⟩
  · rw [hwritten, BitVec.toNat_and]
    exact Nat.and_le_right
  · rw [hwritten, BitVec.and_assoc, BitVec.and_not_self]
    exact BitVec.and_zero

end Sys2Proof.Machine
end

section
/-! Control flow (R151, R180 to R188, R280, R281): the jumps, CALL and RET, the key skips, and the tick of a skip. -/

namespace Sys2Proof.Machine

/-! ## Jumps -/

/-- Settles O17: both are one jump, and the sum of a 12-bit address and a register fits 16 bits. -/
theorem jumpsSetPcToTheirTarget : Obligations.JumpsSetPcToTheirTarget :=
  fun _ _ => ⟨⟨_, rfl, rfl, rfl, sameExcept_of_withFieldsOf rfl⟩,
    fun hfits => ⟨_, rfl, toNat_offsetTarget hfits, rfl, sameExcept_of_withFieldsOf rfl⟩⟩

/-! ## CALL and RET -/

theorem exec_call_next (nnn : Word) {s : State} (h : s.sp.val < 16) :
    exec (.call nnn) s = .next { s with
      stack := s.stack.set s.sp.val (s.pc + 2), sp := ⟨s.sp.val + 1, by omega⟩, pc := nnn, jump := true } :=
  s.pushThen_next (s.pc + 2) (fun s' => s'.jumpTo nnn) h

theorem exec_ret_next {s : State} {k : Fin 16} (h : s.sp.val = k.val + 1) :
    exec .ret s = .next { s with
      stack := s.stack.set k.val 0, sp := ⟨k.val, by omega⟩, pc := s.stack[k], jump := true } := by
  have hpop := s.popThen_next (fun a s' => s'.jumpTo a) (by omega)
  simp only [h, Nat.add_sub_cancel] at hpop
  exact hpop

/-- Settles O18: CALL is one push and a jump, RET one pop and a jump to the popped address. -/
theorem callPushesAndReturnPops : Obligations.CallPushesAndReturnPops := by
  refine fun nnn s => ⟨fun h => ?_, fun k h => ?_⟩
  · refine ⟨_, exec_call_next nnn h, Vector.getElem_set_self h, fun k hk => ?_, rfl, rfl, rfl,
      sameExcept_of_withFieldsOf rfl⟩
    rw [stack_getElem_set, if_neg (Ne.symm hk)]
  · refine ⟨_, exec_ret_next h, rfl, Vector.getElem_set_self k.isLt, fun j hj => ?_, rfl, rfl,
      sameExcept_of_withFieldsOf rfl⟩
    rw [stack_getElem_set, if_neg fun e => hj (Fin.ext e.symm)]

/-- Settles O19: RET pops the slot that CALL filled. -/
theorem returnAfterCallResumesAfterTheCall : Obligations.ReturnAfterCallResumesAfterTheCall := by
  intro nnn s h
  refine ⟨_, _, exec_call_next nnn h, exec_ret_next (k := ⟨s.sp.val, h⟩) rfl, Vector.getElem_set_self h, rfl,
    fun k => ?_, sameExcept_of_withFieldsOf rfl⟩
  simp only [stack_getElem_set, eq_comm (a := s.sp.val)]
  split_ifs <;> rfl

/-- Settles O20: there is no slot to push to, or none to pop. -/
theorem stackViolationsHaltWithoutOtherChange : Obligations.StackViolationsHaltWithoutOtherChange :=
  fun _ s => ⟨fun h => s.pushThen_raise (s.pc + 2) (fun s' => s'.jumpTo _) h,
    fun h => s.popThen_raise (fun a s' => s'.jumpTo a) h⟩

/-! ## The key skips -/

theorem exec_skp_next {x : Reg} {s : State} {k : Key} (h : (s.getV x).toNat = k.val) :
    exec (.skp x) s = .next (s.skipIf s.key[k]) := by
  have hkey := s.withKey_next x s.skipIf (h ▸ k.isLt)
  simp only [h] at hkey
  exact hkey

theorem exec_sknp_next {x : Reg} {s : State} {k : Key} (h : (s.getV x).toNat = k.val) :
    exec (.sknp x) s = .next (s.skipIf !s.key[k]) := by
  have hkey := s.withKey_next x (s.skipIf !·) (h ▸ k.isLt)
  simp only [h] at hkey
  exact hkey

/-- Settles O22: with a key in V[x] each is a skip on its live state, with none it raises. -/
theorem keySkipsReadTheLiveKeyState : Obligations.KeySkipsReadTheLiveKeyState := by
  refine fun x s => ⟨fun k h => ⟨exec_skips (exec_skp_next h), ?_⟩,
    fun h => ⟨s.withKey_raise x s.skipIf h, s.withKey_raise x (s.skipIf !·) h⟩⟩
  simpa only [Bool.not_eq_true', Bool.if_false_left, ← Bool.not_eq_true, ite_not] using exec_skips (exec_sknp_next h)

/-! ## The tick of a skip -/

/-- A skip and step 4 advance PC by 4 or by 2 (R144, R151). -/
theorem step_of_skip {s : State} {w : Word} {i : Instr} {c : Bool} {p : Prop} [Decidable p] (hf : Fetches s w)
    (hd : decode w = .instr i) (he : exec i (atExec s w) = .next ((atExec s w).skipIf c)) (hc : c = true ↔ p) :
    ∃ t, step s = .next t ∧ t.pc = s.pc + (if p then 4 else 2) := by
  have hhalt : ((atExec s w).skipIf c).halt = none := by
    rw [State.skipIf_halt]
    exact (s.running_iff.mp hf.1).1
  refine ⟨_, step_of_instr hf hd he hhalt, ?_⟩
  rw [State.finishTick_pc, State.skipIf_jump, State.skipIf_pc, ← if_congr hc rfl rfl]
  cases c with
  | true => exact BitVec.add_assoc s.pc 2 2
  | false => rfl

theorem step_of_skip_unless {s : State} {w : Word} {i : Instr} {c : Bool} {p : Prop} [Decidable p] (hf : Fetches s w)
    (hd : decode w = .instr i) (he : exec i (atExec s w) = .next ((atExec s w).skipIf c)) (hc : c = true ↔ ¬ p) :
    ∃ t, step s = .next t ∧ t.pc = s.pc + (if p then 2 else 4) := by
  simpa only [ite_not] using step_of_skip hf hd he hc

/-- Settles O23: the word's fields are the operands, and the tick of the instruction is the tick of a skip. -/
theorem tickOfASkipAdvancesByFourOrTwo : Obligations.TickOfASkipAdvancesByFourOrTwo := by
  intro s x y nn n w hf
  have hnn := nn.isLt
  refine ⟨fun h => ?_, fun h => ?_, fun h => ?_, fun h => ?_, fun k hk h => ?_, fun k hk h => ?_⟩
  · have hd : decode w = .instr (.seImm x nn) := by
      rw [decode_group3 (by rw [fieldG_eq]; omega), fieldX_of (x := x) (by omega), fieldNN_of (nn := nn) (by omega)]
    exact step_of_skip hf hd rfl beq_iff_eq
  · have hd : decode w = .instr (.sneImm x nn) := by
      rw [decode_group4 (by rw [fieldG_eq]; omega), fieldX_of (x := x) (by omega), fieldNN_of (nn := nn) (by omega)]
    exact step_of_skip_unless hf hd rfl bne_iff_ne
  · have hd : decode w = .instr (.seReg x y) := by
      rw [decode_group5 (by rw [fieldG_eq]; omega), fieldX_of (x := x) (by omega), fieldY_of (y := y) (by omega)]
    exact step_of_skip hf hd rfl beq_iff_eq
  · have hd : decode w = .instr (.sneReg x y) := by
      rw [decode_group9 (by rw [fieldG_eq]; omega), fieldX_of (x := x) (by omega), fieldY_of (y := y) (by omega)]
    exact step_of_skip_unless hf hd rfl bne_iff_ne
  · have hd : decode w = .instr (.skp x) := by
      rw [decode_groupE (by rw [fieldG_eq]; omega), decodeGroupE, fieldX_of (x := x) (by omega),
        fieldNN_eq, show w.toNat % 256 = 0x9E by omega]
      rfl
    exact step_of_skip hf hd (exec_skp_next (s := atExec s w) hk) Iff.rfl
  · have hd : decode w = .instr (.sknp x) := by
      rw [decode_groupE (by rw [fieldG_eq]; omega), decodeGroupE, fieldX_of (x := x) (by omega),
        fieldNN_eq, show w.toNat % 256 = 0xA1 by omega]
      rfl
    exact step_of_skip_unless hf hd (exec_sknp_next (s := atExec s w) hk) (by simp [atExec])

end Sys2Proof.Machine
end

section
/-! Index and memory (R75, R79, R250 to R256): ADD I, the two stores and the load through I, what they do beyond
memory, and that a later fetch reads what they stored. -/

namespace Sys2Proof.Machine

/-! ## ADD I, Vx -/

theorem indexFlag_iff (a : Word) (b : Byte) : indexFlag a b = true ↔ a.toNat + b.toNat > 0xFFF := decide_eq_true_iff

theorem indexAddend_spec (o : VfWriteOrder) (s : State) (x : Reg) : IndexAddend o s x (s.indexAddend o x).toNat := by
  cases o with
  | flagFirst =>
    unfold IndexAddend State.indexAddend
    dsimp only
    split_ifs
    · exact ⟨_, isBool_boolByte (indexFlag_iff ..), rfl⟩
    · rfl
  | operandsFirst => rfl

theorem exec_addIVx (x : Reg) (s : State) : exec (.addIVx x) s = s.addIndex Config.vfWriteOrder x :=
  s.addIndex_orderFor x

/-- Settles O25: the addend is V[x] or, with the flag first and x = 0xF, the new flag; a byte. -/
theorem addToIndexIsNotMasked : Obligations.AddToIndexIsNotMasked := by
  intro x s
  have hlt := (s.indexAddend Config.vfWriteOrder x).isLt
  refine ⟨_, indexAddend_spec Config.vfWriteOrder s x, fun hi => by omega, fun hfits => ?_, fun hover => ?_⟩
  · refine ⟨_, (exec_addIVx x s).trans (s.addIndex_next _ x hfits), ?_, ?_, fun r hr => s.getV_setV_other _ hr,
      sameExcept_of_withFieldsOf rfl⟩
    · exact Nat.mod_eq_of_lt (Nat.lt_succ_of_le hfits)
    · exact (s.getV_setV_same vF _).symm ▸ isBool_boolByte (indexFlag_iff ..)
  · exact (exec_addIVx x s).trans (s.addIndex_raise _ x hover)

/-! ## The two stores and the load -/

theorem exec_ldBVx_next (x : Reg) {s : State} (h : s.i.toNat + 3 ≤ Config.memSize) :
    exec (.ldBVx x) s = .next (s.writeFromI (decimalDigits (s.getV x))) :=
  s.checkedAccess_next _ (.inr h)

theorem exec_ldMemVx_next {x : Reg} {s : State} (h : s.i.toNat + x.val + 1 ≤ Config.memSize) :
    exec (.ldMemVx x) s = .next { s.writeFromI (s.v.toList.take (x.val + 1)) with
      i := s.i + BitVec.ofNat 16 (x.val + 1) } :=
  s.checkedAccess_next _ (.inr h)

theorem exec_ldVxMem_next {x : Reg} {s : State} (h : s.i.toNat + x.val + 1 ≤ Config.memSize) :
    exec (.ldVxMem x) s = .next { s with
      v := Vector.ofFn (fun z : Reg => if z ≤ x then s.mem.read (s.dataAddr z.val) else s.getV z)
      i := s.i + BitVec.ofNat 16 (x.val + 1) } :=
  s.checkedAccess_next _ (.inr h)

/-- I after a store or a load of V0 to Vx that stays within memory does not wrap (R254, R255). -/
theorem toNat_advancedIndex {a : Word} {x : Reg} (h : a.toNat + x.val + 1 ≤ Config.memSize) :
    (a + BitVec.ofNat 16 (x.val + 1)).toNat = a.toNat + x.val + 1 := by
  change a.toNat + x.val + 1 ≤ 0x1000 at h
  rw [BitVec.toNat_add, BitVec.toNat_ofNat]
  omega

theorem State.read_writeFromI {s : State} (hwf : s.mem.wf = true) {bs : List Byte}
    (hfits : s.i.toNat + bs.length ≤ Config.memSize) {k : Nat} (hk : k < bs.length) :
    (s.writeFromI bs).mem.read (s.dataAddr k) = bs[k] :=
  Memory.read_writeAll_inside hwf hfits hk

theorem State.writeFromI_sameMemoryOutside {s : State} (hwf : s.mem.wf = true) {bs : List Byte}
    (hfits : s.i.toNat + bs.length ≤ Config.memSize) :
    SameMemoryOutside s (s.writeFromI bs) (s.dataAddr 0) bs.length :=
  fun _ hb => Memory.read_writeAll_outside hwf hfits hb

theorem registersUpTo_getElem (s : State) {x z : Reg}
    (hz : z.val < (s.v.toList.take (x.val + 1)).length) : (s.v.toList.take (x.val + 1))[z.val] = s.getV z := by
  simp [State.getV]

theorem toNat_decimalDigits (b : Byte) {k : Nat} (hk : k < 3) :
    ((decimalDigits b)[k]'hk).toNat = b.toNat / 10 ^ (2 - k) % 10 := by
  have hlt := b.isLt
  interval_cases k <;> simp [decimalDigits] <;> omega

/-- Settles O26: the three bytes are the digits of V[x]. -/
theorem bcdStoresThreeDecimalDigits : Obligations.BcdStoresThreeDecimalDigits := by
  intro x s hwf hfits
  have hlt := (s.getV x).isLt
  have hstored {k : Nat} (hk : k < 3) :
      ((s.writeFromI (decimalDigits (s.getV x))).mem.read (s.dataAddr k)).toNat =
        (s.getV x).toNat / 10 ^ (2 - k) % 10 := by
    rw [State.read_writeFromI (bs := decimalDigits _) hwf hfits hk, toNat_decimalDigits _ hk]
  refine ⟨_, exec_ldBVx_next x hfits, ⟨_, _, _, ?_, ?_, ?_, ?_, hstored (k := 0) (by decide),
    hstored (k := 1) (by decide), hstored (k := 2) (by decide)⟩,
    State.writeFromI_sameMemoryOutside (bs := decimalDigits _) hwf hfits, sameExcept_of_withFieldsOf rfl⟩
  all_goals omega

/-- Settles O27: the bytes are V0 to Vx, and I + x + 1 does not wrap. -/
theorem registerDumpStoresV0ToVx : Obligations.RegisterDumpStoresV0ToVx := by
  intro x s hwf hfits
  have hlen := length_registersUpTo s.v x
  have hroom : s.i.toNat + (s.v.toList.take (x.val + 1)).length ≤ Config.memSize := hlen.symm ▸ hfits
  refine ⟨_, exec_ldMemVx_next hfits, fun z hz => ?_, ?_, toNat_advancedIndex hfits, sameExcept_of_withFieldsOf rfl⟩
  · have hk : z.val < (s.v.toList.take (x.val + 1)).length := hlen.symm ▸ Nat.lt_succ_of_le hz
    exact (State.read_writeFromI hwf hroom hk).trans (registersUpTo_getElem s hk)
  · have hframe := State.writeFromI_sameMemoryOutside hwf hroom
    rwa [hlen] at hframe

/-- Settles O28: one update of the register file and of I. -/
theorem registerLoadReadsV0ToVx : Obligations.RegisterLoadReadsV0ToVx :=
  fun _ s hfits => ⟨_, exec_ldVxMem_next hfits, fun z => s.getV_ofFn _ z, toNat_advancedIndex hfits,
    sameExcept_of_withFieldsOf rfl⟩

/-- Settles O29: the load reads at each address what the store wrote there. -/
theorem registerLoadUndoesRegisterDump : Obligations.RegisterLoadUndoesRegisterDump := by
  intro x s v' hwf hfits
  obtain ⟨t, ht, hstored, _, hi, _⟩ := registerDumpStoresV0ToVx x s hwf hfits
  obtain ⟨u, hu, hloaded, hui, _⟩ := registerLoadReadsV0ToVx x { t with v := v', i := s.i } hfits
  refine ⟨t, u, ht, hu, fun z hz => ?_, hi, BitVec.eq_of_toNat_eq (hui.trans hi.symm)⟩
  rw [hloaded z, if_pos hz]
  exact hstored z hz

/-! ## Beyond memory -/

/-- Settles O30: the access is checked before anything changes, and the lowest bad address is I or 0x1000. -/
theorem accessBeyondMemoryHaltsWithoutOtherChange : Obligations.AccessBeyondMemoryHaltsWithoutOtherChange :=
  fun _ _ _ s => ⟨fun hn h => s.checkedAccess_raise _ hn h, fun h => s.checkedAccess_raise _ (by decide) h,
    fun h => ⟨s.checkedAccess_raise _ (Nat.succ_pos _) h, s.checkedAccess_raise _ (Nat.succ_pos _) h⟩⟩

/-! ## Stored bytes as code -/

theorem toNat_wordOfBytes (hi lo : Byte) : (wordOfBytes hi lo).toNat = hi.toNat * 256 + lo.toNat := by
  rw [wordOfBytes, BitVec.toNat_append, ← Nat.shiftLeft_add_eq_or_of_lt lo.isLt, Nat.shiftLeft_eq]

/-- A fetch reads memory and nothing else, so that a byte is fetched as it reads (R141). -/
theorem fetchedAt_read (t : State) (a : Nat) : FetchedAt t a (t.mem.read a).toNat := by
  intro p hp
  have hlo := (t.mem.read (p.toNat + 1)).isLt
  refine ⟨_, if_neg (Nat.not_lt.mpr hp), fun h => ?_, fun h => ?_⟩
  · rw [toNat_wordOfBytes, ← h]
    dsimp only
    omega
  · rw [toNat_wordOfBytes, ← h]
    dsimp only
    omega

/-- Settles O31: both stores leave the bytes in memory, where a fetch reads them. -/
theorem storedBytesAreFetchedAsCode : Obligations.StoredBytesAreFetchedAsCode := by
  refine fun x s hwf => ⟨fun hfits => ?_, fun hfits => ?_⟩
  · obtain ⟨t, ht, hstored, _⟩ := registerDumpStoresV0ToVx x s hwf hfits
    exact ⟨t, ht, fun z hz => hstored z hz ▸ fetchedAt_read t _⟩
  · refine ⟨_, exec_ldBVx_next x hfits, fun k hk => ?_⟩
    rw [← toNat_decimalDigits _ hk, ← State.read_writeFromI (bs := decimalDigits _) hwf hfits hk]
    exact fetchedAt_read _ _

end Sys2Proof.Machine
end

section
/-! Drawing a sprite (R161 to R163): the cells it covers and the collision in the words of the spec, and a sprite
drawn twice. -/

namespace Sys2Proof.Machine

/-! ## Sprites in the words of the spec -/

theorem cellIndex_eq_iff (s : State) (x y : Reg) (r c : Nat) (k : Fin Config.cells) :
    cellIndex (s.getV x).toNat (s.getV y).toNat r c = k ↔ FallsOn s x y r c k :=
  Fin.ext_iff.trans eq_comm

theorem spriteBit_iff (s : State) (r c : Nat) :
    spriteBit (s.mem.read (s.i.toNat + r)) c = true ↔ SpriteBit s r c := by
  rw [spriteBit, BitVec.getLsbD, Nat.testBit_eq_decide_div_mod_eq, decide_eq_true_iff, SpriteBit]

/-- Some 1 bit of the `n` rows at I, drawn at V[x], V[y], falls on the cell (R161, R162). -/
def Covers (s : State) (x y : Reg) (n : Nat) (k : Fin Config.cells) : Prop :=
  ∃ r < n, ∃ c < 8, FallsOn s x y r c k ∧ SpriteBit s r c

theorem spriteCovers_iff (s : State) (x y : Reg) (n : Nat) (k : Fin Config.cells) :
    spriteCovers (s.getV x).toNat (s.getV y).toNat 0 (s.readFromI n) k ↔ Covers s x y n k := by
  simp only [spriteCovers, Covers, State.readFromI_getElem, State.readFromI_length, Nat.zero_add, cellIndex_eq_iff,
    spriteBit_iff, exists_prop]

theorem spriteHits_iff (s : State) (x y : Reg) (n : Nat) :
    spriteHits (s.getV x).toNat (s.getV y).toNat 0 (s.readFromI n) s.fb ↔
      ∃ r < n, ∃ c < 8, ∃ k : Fin Config.cells, FallsOn s x y r c k ∧ SpriteBit s r c ∧ s.fb[k] = true := by
  simp only [spriteHits, State.readFromI_getElem, State.readFromI_length, Nat.zero_add, spriteBit_iff, exists_prop,
    ← cellIndex_eq_iff, exists_eq_left']

/-! ## The statements -/

/-- Settles O15: the cells and the flag are those of the drawn rows, which no cell meets twice. -/
theorem drawXorsTheSpriteAndFlagsCollision : Obligations.DrawXorsTheSpriteAndFlagsCollision := by
  intro x y n s hn hfits
  obtain ⟨hcells, hflag⟩ := drawRows_spec (s.getV x).toNat (s.getV y).toNat 0 (s.readFromI n)
    (by rw [State.readFromI_length]; omega) (s.fb, false)
  refine ⟨_, s.checkedAccess_next _ hfits, fun k => ?_, ?_, rfl, fun r hr => s.getV_setV_other _ hr,
    sameExcept_of_withFieldsOf rfl⟩
  · rw [hcells k, spriteCovers_iff]
    rfl
  · refine (s.getV_setV_same vF _).symm ▸ isBool_boolByte ?_
    rw [hflag, spriteHits_iff]
    simp

/-- What a sprite covers depends on I, its bytes and its coordinates. -/
theorem covers_congr {s t : State} {x y : Reg} (n : Nat) (k : Fin Config.cells) (hx : t.getV x = s.getV x)
    (hy : t.getV y = s.getV y) (hi : t.i = s.i) (hmem : ∀ a, t.mem.read a = s.mem.read a) :
    Covers t x y n k ↔ Covers s x y n k := by
  simp only [Covers, FallsOn, SpriteBit, hx, hy, hi, hmem]

/-- Settles O16: the second drawing covers the same cells as the first, and an XOR undoes itself. -/
theorem drawingTwiceRestoresTheDisplay : Obligations.DrawingTwiceRestoresTheDisplay := by
  intro x y n s hx hy hn hfits
  obtain ⟨t, ht, hcells, _, _, hothers, hframe⟩ := drawXorsTheSpriteAndFlagsCollision x y n s hn hfits
  have hi : t.i = s.i := hframe .i (by decide)
  obtain ⟨u, hu, hcells', _⟩ := drawXorsTheSpriteAndFlagsCollision x y n t hn (hi ▸ hfits)
  refine ⟨t, u, ht, hu, fun k => Bool.eq_iff_iff.mpr ?_⟩
  have hcovers := covers_congr n k (hothers x hx) (hothers y hy) hi (hframe .mem (by decide))
  have hfirst : t.fb[k] = true ↔ ¬ (s.fb[k] = true ↔ Covers s x y n k) := hcells k
  have hsecond : u.fb[k] = true ↔ ¬ (t.fb[k] = true ↔ Covers t x y n k) := hcells' k
  tauto

end Sys2Proof.Machine
end

section
/-! Keys and timers (R283 to R285): the wait for a key, and the tick that writes a timer. -/

namespace Sys2Proof.Machine

/-! ## Waiting for a key -/

theorem exec_ldVxK_latched (x : Reg) {s : State} (h : s.kflag = true) :
    exec (.ldVxK x) s = .next { s.setV x (BitVec.ofNat 8 s.klatch.val) with kflag := false } := if_pos h

theorem exec_ldVxK_waits (x : Reg) {s : State} (h : s.kflag = false) :
    exec (.ldVxK x) s = .next { s with await := true, jump := true } := if_neg (by simp [h])

/-- Settles O33: KFLAG tells whether a press is latched, and a key number fits a byte. -/
theorem waitForKeyTakesALatchedPress : Obligations.WaitForKeyTakesALatchedPress := by
  refine fun x s => ⟨fun h => ?_, fun h => ?_⟩
  · refine ⟨_, exec_ldVxK_latched x h, ?_, rfl, fun r hr => s.getV_setV_other _ hr, sameExcept_of_withFieldsOf rfl⟩
    refine (congrArg BitVec.toNat (s.getV_setV_same x _)).trans ?_
    rw [BitVec.toNat_ofNat]
    omega
  · exact ⟨_, exec_ldVxK_waits x h, rfl, rfl, sameExcept_of_withFieldsOf rfl⟩

/-! ## Writing a timer -/

/-- Settles O34: step 5 or step 6 comes after the instruction, and counts the value that it wrote. -/
theorem writtenTimerIsDecrementedInTheSameTick : Obligations.WrittenTimerIsDecrementedInTheSameTick := by
  intro s x w hf
  have hhalt : s.halt = none := (s.running_iff.mp hf.1).1
  refine ⟨fun h => ?_, fun h => ?_⟩
  · have hd : decode w = .instr (.ldDtVx x) := by
      rw [decode_groupF (by rw [fieldG_eq]; omega), decodeGroupF, fieldX_of (x := x) (by omega),
        fieldNN_eq, show w.toNat % 256 = 0x15 by omega]
      rfl
    exact ⟨_, step_of_instr hf hd rfl hhalt, State.finishTick_dt_toNat _⟩
  · have hd : decode w = .instr (.ldStVx x) := by
      rw [decode_groupF (by rw [fieldG_eq]; omega), decodeGroupF, fieldX_of (x := x) (by omega),
        fieldNN_eq, show w.toNat % 256 = 0x18 by omega]
      rfl
    exact ⟨_, step_of_instr hf hd rfl hhalt, State.finishTick_st_toNat _,
      State.soundStop_mem_finishTick (s := { atExec s w with st := s.getV x }) List.not_mem_nil⟩

end Sys2Proof.Machine
end

section
/-! The host's side (R333, R350 to R357): what reset leaves, the launch state, and the key events. -/

namespace Sys2Proof.Machine

/-! ## Reset -/

theorem Memory.unlisted_font (a : Fin Config.fontSize) : Memory.unlisted a.val = Config.font a := dif_pos a.isLt

theorem Memory.unlisted_zero {a : Nat} (h : Config.fontSize ≤ a) : Memory.unlisted a = 0 :=
  dif_neg (Nat.not_lt.mpr h)

/-- Settles O57: memory lists nothing after reset, so that every address reads as its reset content. -/
theorem resetLeavesTheStatedValues : Obligations.ResetLeavesTheStatedValues :=
  fun _ => ⟨Memory.unlisted_font, fun _ => Memory.unlisted_zero, fun r => Vector.getElem_replicate r.isLt, rfl, rfl,
    fun k => Vector.getElem_replicate k.isLt, rfl, rfl, rfl, fun k => Vector.getElem_replicate k.isLt,
    fun k => Vector.getElem_replicate k.isLt, rfl, rfl, rfl, rfl, rfl, rfl, rfl, rfl, rfl, rfl⟩

/-! ## The launch state -/

theorem launch_eq {image : List Byte} (h : image.length ≤ Config.progMax) :
    launch image = { State.reset with mem := Memory.writeAll Config.progBase image [] } :=
  congrArg Prod.snd (State.reset.load_ok h)

theorem launch_read_inside {image : List Byte} (h : image.length ≤ Config.progMax) {j : Nat} (hj : j < image.length) :
    (launch image).mem.read (0x200 + j) = image[j] := by
  rw [launch_eq h]
  exact Memory.read_writeAll_inside Memory.wf_nil (progBase_add_le_memSize h) hj

theorem launch_read_outside {image : List Byte} (h : image.length ≤ Config.progMax) {a : Nat}
    (ha : a < 0x200 ∨ 0x200 + image.length ≤ a) : (launch image).mem.read a = Memory.unlisted a := by
  rw [launch_eq h]
  exact Memory.read_writeAll_outside Memory.wf_nil (progBase_add_le_memSize h) ha

theorem launch_sameExcept {image : List Byte} (h : image.length ≤ Config.progMax) :
    SameExcept [.mem] State.reset (launch image) := by
  rw [launch_eq h]
  exact State.reset.withMem_sameExcept _

theorem no_load_after_tick {h : HostSession} {r : HostAnswer} (hr : hostStep .tick h = some (.next r))
    (image : List Byte) : hostStep (.load image) r.session = none := by
  obtain ⟨t, ht⟩ := step_isNext h.state
  cases (congrArg some (HostSession.tick_next ht)).symm.trans hr
  exact hostStep_load_none rfl image

/-- Settles O59: reset gives the right to load, and a load that copied, or a tick, takes it away. -/
theorem launchStateHoldsFontAndImage : Obligations.LaunchStateHoldsFontAndImage := by
  intro image h
  refine ⟨⟨h.state.hostReset, true⟩, rfl, fun hlong => ?_, fun hfits => ⟨?_, fun a => ?_, fun a hlo hhi => ?_,
    fun j hj => launch_read_inside hfits hj, fun a ha => ?_, launch_sameExcept hfits⟩,
    fun r hr => no_load_after_tick hr image⟩
  · rw [hostStep_load rfl, HostSession.load_tooLarge _ hlong]
  · refine ⟨_, by rw [hostStep_load rfl, HostSession.load_ok _ hfits], ?_, hostStep_load_none rfl⟩
    rw [launch_eq hfits]
    rfl
  · exact (launch_read_outside hfits (.inl (a.isLt.trans (by decide)))).trans (Memory.unlisted_font a)
  · exact (launch_read_outside hfits (.inl hhi)).trans (Memory.unlisted_zero hlo)
  · exact (launch_read_outside hfits (.inr ha)).trans (Memory.unlisted_zero (by change 80 ≤ a; omega))

/-! ## Key events -/

theorem key_getElem_set (key : Vector Bool 16) (k : Key) (b : Bool) (j : Key) :
    (key.set k b)[j] = if k = j then b else key[j] := by
  simp only [Fin.getElem_fin, Vector.getElem_set, Fin.ext_iff]

/-- Settles O60: each event is one write to KEY, and a press writes the latch when none is latched. -/
theorem keyEventsUpdateTheLatchOnce : Obligations.KeyEventsUpdateTheLatchOnce := by
  intro s k
  have other {b : Bool} {j : Key} (hj : j ≠ k) : (s.key.set k b)[j] = s.key[j] := by
    rw [key_getElem_set, if_neg (Ne.symm hj)]
  rw [s.press_eq]
  exact ⟨Vector.getElem_set_self k.isLt, fun j hj => other hj, rfl, rfl, sameExcept_of_withFieldsOf rfl,
    Vector.getElem_set_self k.isLt, fun j hj => other hj, sameExcept_of_withFieldsOf rfl⟩

end Sys2Proof.Machine
end
